-- ==== Sys2Proof/Word.lean ====
section
/-! DEFINITION. The word types of CORE (spec/00_scope.md R6, R8): every register and memory value is
unsigned; a bit vector is used for what the spec slices, adds or masks, a number for what only counts
or selects. -/

namespace Sys2Proof

/-- One byte of memory or one general register (R21, R26): 8 bits, unsigned. -/
abbrev Byte := BitVec 8

/-- The index register, the program counter, a stack entry and an instruction word: 16 bits
(R28, R29, R31, R71). -/
abbrev Word := BitVec 16

/-- The embedded 12-bit address `nnn` (R72). -/
abbrev Addr12 := BitVec 12

/-- A register number `x` or `y`: all sixteen values are legal (R74). -/
abbrev Reg := Fin 16

/-- The register number of VF, the flag register `V[15]` (R22). -/
abbrev regVF : Reg := 15

/-- Memory as plain data: the bytes that differ from what an unlisted address reads as, by strictly
rising address (`Memory.wf` in Machine/Memory.lean). -/
abbrev Memory := List Host.Cell

/-- The display (R35): row `r` counted from the top, bit `c` of a row is the pixel of column `c`
counted from the left, 1 is fully-on. -/
abbrev Display := Vector (BitVec 64) 32

/-- `zext_16` of an 8-bit value (R8). -/
abbrev zext16OfByte (b : Byte) : Word := b.setWidth 16

/-- `zext_16` of the 12-bit address (R8, R74). -/
abbrev zext16OfAddr (a : Addr12) : Word := a.setWidth 16

end Sys2Proof
end

