-- ==== Sys2Proof/Syntax.lean ====
section
/-! DEFINITION. The instruction set as syntax: one constructor per row of spec/opcode_table.json
(spec/30_encoding.md R79), in the table's order. -/

namespace Sys2Proof

/-- The 35 instructions of R79. `x`, `y` are register numbers, `kk` an 8-bit immediate, `nnn` a 12-bit
address, `n` the row count of DRW. -/
inductive Instr where
  /-- `0zz0` CLS (R165). -/
  | cls
  /-- `0zzE` RET (R102). -/
  | ret
  /-- `1nnn` JP nnn (R100). -/
  | jp (nnn : Addr12)
  /-- `2nnn` CALL nnn (R101). -/
  | call (nnn : Addr12)
  /-- `3xkk` SE Vx, kk (R110). -/
  | seImm (x : Reg) (kk : Byte)
  /-- `4xkk` SNE Vx, kk (R111). -/
  | sneImm (x : Reg) (kk : Byte)
  /-- `5xyz` SE Vx, Vy (R112). -/
  | seReg (x y : Reg)
  /-- `6xkk` LD Vx, kk (R120). -/
  | ldImm (x : Reg) (kk : Byte)
  /-- `7xkk` ADD Vx, kk (R121). -/
  | addImm (x : Reg) (kk : Byte)
  /-- `8xy0` LD Vx, Vy (R122). -/
  | ldReg (x y : Reg)
  /-- `8xy1` OR Vx, Vy (R123). -/
  | orReg (x y : Reg)
  /-- `8xy2` AND Vx, Vy (R124). -/
  | andReg (x y : Reg)
  /-- `8xy3` XOR Vx, Vy (R125). -/
  | xorReg (x y : Reg)
  /-- `8xy4` ADD Vx, Vy (R126). -/
  | addReg (x y : Reg)
  /-- `8xy5` SUB Vx, Vy (R127). -/
  | subReg (x y : Reg)
  /-- `8xy6` SHR Vx (R128); `y` is decoded and is read only under `SHIFT_SOURCE = Vy` (R7). -/
  | shr (x y : Reg)
  /-- `8xy7` SUBN Vx, Vy (R129). -/
  | subnReg (x y : Reg)
  /-- `8xyE` SHL Vx (R130); `y` as in `shr`. -/
  | shl (x y : Reg)
  /-- `9xyz` SNE Vx, Vy (R113). -/
  | sneReg (x y : Reg)
  /-- `Annn` LD I, nnn (R140). -/
  | ldI (nnn : Addr12)
  /-- `Bnnn` JP V0, nnn (R103). -/
  | jpV0 (nnn : Addr12)
  /-- `Cxkk` RND Vx, kk (R160). -/
  | rnd (x : Reg) (kk : Byte)
  /-- `Dxyn` DRW Vx, Vy, n (R166). -/
  | drw (x y : Reg) (n : Fin 16)
  /-- `ExzE` SKP Vx (R114). -/
  | skp (x : Reg)
  /-- `Exz1` SKNP Vx (R115). -/
  | sknp (x : Reg)
  /-- `Fx07` LD Vx, DT (R150). -/
  | ldVxDt (x : Reg)
  /-- `Fx0A` LD Vx, K (R151). -/
  | ldVxK (x : Reg)
  /-- `Fx15` LD DT, Vx (R152). -/
  | ldDtVx (x : Reg)
  /-- `Fx18` LD ST, Vx (R153). -/
  | ldStVx (x : Reg)
  /-- `Fx1E` ADD I, Vx (R141). -/
  | addI (x : Reg)
  /-- `Fx29` LD F, Vx (R142). -/
  | ldF (x : Reg)
  /-- `Fx33` LD B, Vx (R143). -/
  | ldB (x : Reg)
  /-- `Fx55` LD [I], Vx (R144). -/
  | storeRange (x : Reg)
  /-- `Fx65` LD Vx, [I] (R145). -/
  | loadRange (x : Reg)
  /-- Any word no other row selects: NOP (R180). The word is kept so that every unmapped word has an
  instruction of its own; the meaning ignores it. -/
  | nop (w : Word)
  deriving DecidableEq, Repr

end Sys2Proof
end

