-- ==== Sys2Proof/WellFormed.lean ====
section
/-! DEFINITION. Which terms of `Instr` are instructions of the machine. Register numbers, immediates,
addresses and row counts are in range by their types (all values are legal: spec/30_encoding.md R74), so
the one check is that a NOP carries an unmapped word (R82). -/

namespace Sys2Proof

/-- The secondary selectors of family F that have an operation (R82). -/
def familyFSelectors : List Nat :=
  [0x07, 0x0A, 0x15, 0x18, 0x1E, 0x29, 0x33, 0x55, 0x65]

/-- The unmapped words, set by set as R82 lists them: family 0 with low nibble in 1..D, F; family 8 with
low nibble in 8..D, F; family E with low nibble in 0, 2..D, F; family F with another low byte than the
nine. -/
def unmapped (w : Word) : Bool :=
  let op := w.toNat / 4096
  let n := w.toNat % 16
  let kk := w.toNat % 256
  (op == 0x0 && !(n == 0x0 || n == 0xE)) ||
  (op == 0x8 && 8 ≤ n && n != 0xE) ||
  (op == 0xE && !(n == 0x1 || n == 0xE)) ||
  (op == 0xF && !familyFSelectors.contains kk)

/-- An instruction is well formed unless it is a NOP whose word some other row selects. -/
def Instr.wellFormed : Instr → Bool
  | .nop w => unmapped w
  | .cls | .ret | .jp _ | .call _ | .seImm _ _ | .sneImm _ _ | .seReg _ _ | .ldImm _ _
  | .addImm _ _ | .ldReg _ _ | .orReg _ _ | .andReg _ _ | .xorReg _ _ | .addReg _ _
  | .subReg _ _ | .shr _ _ | .subnReg _ _ | .shl _ _ | .sneReg _ _ | .ldI _ | .jpV0 _
  | .rnd _ _ | .drw _ _ _ | .skp _ | .sknp _ | .ldVxDt _ | .ldVxK _ | .ldDtVx _ | .ldStVx _
  | .addI _ | .ldF _ | .ldB _ | .storeRange _ | .loadRange _ => true

end Sys2Proof
end

