-- ==== Sys2Proof/Config.lean ====
section
/-! DEFINITION. What is fixed for the machine (spec/00_scope.md R6), the kinds of choice the spec leaves
as parameters (R7; the choices themselves stand in Machine/Params.lean), and the one free value: the
random byte (R37). -/

namespace Sys2Proof.Config

/-- MEM_SIZE of R6: addresses 0x000 to 0xFFF. -/
abbrev memSize : Nat := 4096

/-- ENTRY of R6: the program counter at reset and the load address of the image. -/
abbrev entry : Nat := 0x200

/-- IMAGE_MAX of R6: 4096 - 0x200 bytes. -/
abbrev imageMax : Nat := 3584

/-- GLYPH_BASE of R6. -/
abbrev glyphBase : Nat := 0x050

/-- Bytes of one glyph (GLYPH_SIZE of R6). -/
abbrev glyphBytes : Nat := 5

/-- DISPLAY_W of R6. -/
abbrev displayW : Nat := 64

/-- DISPLAY_H of R6. -/
abbrev displayH : Nat := 32

/-- OOR_POLICY of R7: what an access above 0xFFF does. -/
inductive OorPolicy where
  | fault
  | wrap12
  deriving DecidableEq, Repr

/-- SHIFT_SOURCE of R7: the register SHR and SHL shift. -/
inductive ShiftSource where
  | vx
  | vy
  deriving DecidableEq, Repr

/-- RANGE_ADVANCE of R7: what the range instructions add to `I`. -/
inductive RangeAdvance where
  | xPlus1
  | xPlus2
  deriving DecidableEq, Repr

/-- VF_ORDER of R7: whether the flag or the result is written first when both go to VF. -/
inductive VfOrder where
  | flagFirst
  | resultFirst
  deriving DecidableEq, Repr

/-- FREE VALUE (R37, R160; notes/assumptions/6.md): the byte of draw number `n` of the pseudo-random
source. Nothing constrains it: a claim that is proved holds for every sequence of draws. -/
opaque randByte : Nat → Byte

end Sys2Proof.Config
end

