-- ==== Sys2Proof/Machine/Params.lean ====
section
/-! DEFINITION. The parameters of spec/00_scope.md R7, each at the default the spec decides
(spec/92_eei_decisions.md). Every use in the machine goes through these definitions. -/

namespace Sys2Proof.Machine

/-- STACK_LIMIT, default 16 (R6, R7, D1; notes/assumptions/2.md). -/
def stackLimit : Fin 17 := 16

/-- OOR_POLICY, default `fault` (R7, R56, D3; notes/assumptions/4.md). -/
def oorPolicy : Config.OorPolicy := .fault

/-- SHIFT_SOURCE, default `Vx` (R7, D7; notes/assumptions/7.md). -/
def shiftSource : Config.ShiftSource := .vx

/-- RANGE_ADVANCE, default `x + 1` (R7, D9; notes/assumptions/9.md). -/
def rangeAdvance : Config.RangeAdvance := .xPlus1

/-- VF_ORDER, default `flag_first` (R7, R25, D6; notes/assumptions/8.md). -/
def vfOrder : Config.VfOrder := .flagFirst

/-- The glyphs of the digits 0 to 7, five bytes each, top row first (R27). -/
def glyphs0To7 : List Byte :=
  [0xF0, 0x90, 0x90, 0x90, 0xF0] ++ [0x20, 0x60, 0x20, 0x20, 0x70] ++
  [0xF0, 0x10, 0xF0, 0x80, 0xF0] ++ [0xF0, 0x10, 0xF0, 0x10, 0xF0] ++
  [0x90, 0x90, 0xF0, 0x10, 0x10] ++ [0xF0, 0x80, 0xF0, 0x10, 0xF0] ++
  [0xF0, 0x80, 0xF0, 0x90, 0xF0] ++ [0xF0, 0x10, 0x20, 0x40, 0x40]

/-- The glyphs of the digits 8 to F (R27). -/
def glyphs8ToF : List Byte :=
  [0xF0, 0x90, 0xF0, 0x90, 0xF0] ++ [0xF0, 0x90, 0xF0, 0x10, 0xF0] ++
  [0xF0, 0x90, 0xF0, 0x90, 0x90] ++ [0xE0, 0x90, 0xE0, 0x90, 0xE0] ++
  [0xF0, 0x80, 0x80, 0x80, 0xF0] ++ [0xE0, 0x90, 0x90, 0x90, 0xE0] ++
  [0xF0, 0x80, 0xF0, 0x80, 0xF0] ++ [0xF0, 0x80, 0xF0, 0x80, 0x80]

/-- GLYPH_TABLE, default the conventional hexadecimal font, digits ascending (R7, R27, D11;
notes/assumptions/5.md). -/
def glyphTable : List Byte := glyphs0To7 ++ glyphs8ToF

/-- What the byte at address `a` holds after the Reset event (R39, R57): the glyph table at
0x050..0x09F, zero everywhere else. It is what an address that `Memory` does not list reads as. -/
def resetByte (a : Nat) : Byte :=
  if Config.glyphBase ≤ a then glyphTable.getD (a - Config.glyphBase) 0 else 0

end Sys2Proof.Machine
end

