-- ==== Sys2Proof/Machine/Memory.lean ====
section
/-! DEFINITION. Memory (spec/20_memory.md): the 4096 bytes as a canonical list of the bytes that differ
from the reset contents; reading and writing one byte; runs of bytes in ascending address order. -/

namespace Sys2Proof

/-- The byte at address `a` (R55: the last value written, the reset value if none was). -/
def Memory.read : Memory → Nat → Byte
  | [], a => Machine.resetByte a
  | (b, v) :: m, a => if a = b then v else Memory.read m a

/-- List the byte `v` at address `a`, keeping the addresses rising. -/
def Memory.insert : Memory → Nat → Byte → Memory
  | [], a, v => [(a, v)]
  | (b, u) :: m, a, v =>
    if a < b then (a, v) :: (b, u) :: m
    else if a = b then (a, v) :: m
    else (b, u) :: Memory.insert m a v

/-- Write one byte (R55): a byte equal to what the unlisted address reads as is taken off the list. -/
def Memory.write (m : Memory) (a : Nat) (v : Byte) : Memory :=
  if v = Machine.resetByte a then m.filter (fun c => c.1 != a) else Memory.insert m a v

/-- The canonical form: every listed address exists (R26), the addresses strictly rise, and no listed
byte equals what the unlisted address reads as. -/
def Memory.wf : Memory → Bool
  | [] => true
  | (a, v) :: m =>
    decide (a < Config.memSize) && v != Machine.resetByte a && m.all (fun c => decide (a < c.1)) &&
      Memory.wf m

namespace Machine

/-- Whether an access at `a` has no meaning (R56: above 0xFFF under `fault`, never under `wrap12`). -/
def outOfSpace : Config.OorPolicy → Nat → Bool
  | .fault, a => decide (Config.memSize ≤ a)
  | .wrap12, _ => false

/-- The byte address an access at effective address `a` reaches (R56: `a` itself under `fault`, reduced
modulo 4096 under `wrap12`). -/
def reach : Config.OorPolicy → Nat → Nat
  | .fault, a => a
  | .wrap12, a => a % Config.memSize

/-- The first of the `n` effective addresses from `a` on whose access has no meaning (R56). Effective
addresses are unbounded integers. -/
def firstBad (p : Config.OorPolicy) (a : Nat) : Nat → Option Nat
  | 0 => none
  | n + 1 => if outOfSpace p a then some a else firstBad p (a + 1) n

/-- Read `n` bytes from effective address `a` on, in ascending order (R54). -/
def loadBytes (p : Config.OorPolicy) (m : Memory) (a : Nat) : Nat → List Byte
  | 0 => []
  | n + 1 => m.read (reach p a) :: loadBytes p m (a + 1) n

/-- Write bytes from effective address `a` on, in ascending order (R54). -/
def storeBytes (p : Config.OorPolicy) (m : Memory) (a : Nat) : List Byte → Memory
  | [] => m
  | b :: bs => storeBytes p (m.write (reach p a) b) (a + 1) bs

end Machine

end Sys2Proof
end

