-- ==== Sys2Proof/Machine/State.lean ====
section
/-! DEFINITION. The state of CORE (spec/10_state.md R20), the ways an event can have no next state, and
the state after Reset (R39, R240). -/

namespace Sys2Proof.Machine

/-- The report output of an event (spec/60_exceptions.md R200). -/
inductive Report where
  | none
  | stackOverflow
  | stackUnderflow
  | invalidKeyIndex
  | invalidGlyphDigit
  | oversizeImage
  deriving DecidableEq, Repr

/-- Why an event has no next state though the machine attempted it. -/
inductive Fault where
  /-- Raised by the fetch, by DRW, LD B, LD [I] and LD Vx,[I] when an effective address is above 0xFFF,
  and by every event but Reset on a machine already marked faulted; `a` is the first such address the
  event would have used (R56, R205). Safe: the spec gives such an access no meaning, and the model stops
  where the original software does something unknown. -/
  | addressFault (a : Nat)
  deriving DecidableEq, Repr

/-- Why an input has no meaning. -/
inductive Refusal where
  /-- Raised by an arm of `exec` whose instruction has no meaning yet; no arm does. Safe. -/
  | notModelled (mnemonic : String)
  /-- Raised by the KeyWrite event when `k > 15` or `b` is no bit: "not an event of the model" (R213,
  D24). No instruction raises it. Safe. -/
  | keyWriteOutOfRange (k b : Nat)
  deriving DecidableEq, Repr

/-- The machine state. The first eleven fields are the spec's (R20), under its names. -/
structure State where
  /-- `mem[0..4095]` (R26). -/
  mem : Memory
  /-- `V[0..15]` (R21); `V[15]` is VF (R22). -/
  V : Vector Byte 16
  /-- The index register (R28). -/
  I : Word
  /-- The program counter (R29): between events the address of the next instruction; inside an
  instruction the advanced counter (R10). -/
  pc : Word
  /-- The return stack (R31). -/
  stack : Vector Word 16
  /-- The number of return addresses held, 0..16 (R32). -/
  sp : Fin 17
  /-- The delay timer (R33). -/
  DT : Byte
  /-- The sound timer (R33). -/
  ST : Byte
  /-- The keypad, true is down (R34). -/
  key : Vector Bool 16
  /-- The display (R35). -/
  disp : Display
  /-- `draw_flag` (R36). -/
  drawFlag : Bool
  /-- The model's stand-in for `rng` (R37): how many random bytes have been drawn so far. -/
  draws : Nat
  /-- The model's latch of the report output of the last Cycle or LoadImage event (R38, R200). -/
  reportOut : Report
  /-- The model's latch of the cue output of the last Tick60 event (R211). -/
  soundCueOut : Bool
  /-- The fault mark (R205): the offending address once an event has faulted. -/
  faultMark : Option Nat
  deriving DecidableEq, Repr

/-- What an event or an instruction answers. -/
abbrev Result := Host.Outcome State Fault Refusal

/-- The machine right after reset (R39, R240). `draws`, `reportOut` and `soundCueOut` are the model's own
(notes/assumptions/6.md, 11.md, 12.md). -/
def State.reset : State where
  mem := []
  V := Vector.replicate 16 0
  I := 0
  pc := BitVec.ofNat 16 Config.entry
  stack := Vector.replicate 16 0
  sp := 0
  DT := 0
  ST := 0
  key := Vector.replicate 16 false
  disp := Vector.replicate 32 0
  drawFlag := false
  draws := 0
  reportOut := .none
  soundCueOut := false
  faultMark := none

end Sys2Proof.Machine
end

