-- ==== Sys2Proof/Machine/Ops.lean ====
section
/-! DEFINITION. The operations the meanings share: reading and updating the state, the address check, the
fetch, the stack, and the machine's two ways of turning an instruction away (spec/60_exceptions.md: CORE
has no traps, no saved state and no return from exception, R206, R207). -/

namespace Sys2Proof.Machine

/-! ## Updates, one per piece of state an instruction or event writes -/

/-- `V[x] <- b`. No register is hard-wired (R21). -/
def setReg (s : State) (x : Reg) (b : Byte) : State := { s with V := s.V.set x.val b }

/-- All sixteen registers at once, for the range load (R145). -/
def setRegs (s : State) (v : Vector Byte 16) : State := { s with V := v }

/-- `I <- w`. -/
def setI (s : State) (w : Word) : State := { s with I := w }

/-- `pc <- w`. -/
def setPc (s : State) (w : Word) : State := { s with pc := w }

/-- `mem <- m`. -/
def setMem (s : State) (m : Memory) : State := { s with mem := m }

/-- `DT <- b`. -/
def setDT (s : State) (b : Byte) : State := { s with DT := b }

/-- `ST <- b`. -/
def setST (s : State) (b : Byte) : State := { s with ST := b }

/-- `key[k] <- b`. -/
def setKey (s : State) (k : Fin 16) (b : Bool) : State := { s with key := s.key.set k.val b }

/-- The display and `draw_flag <- 1`, which every display instruction sets (R36). -/
def setDisplay (s : State) (d : Display) : State := { s with disp := d, drawFlag := true }

/-- `draw_flag <- b`. -/
def setDrawFlag (s : State) (b : Bool) : State := { s with drawFlag := b }

/-- `report_out = c`. -/
def setReport (s : State) (c : Report) : State := { s with reportOut := c }

/-- The `sound_cue_out` of a Tick60 event. -/
def setCue (s : State) (b : Bool) : State := { s with soundCueOut := b }

/-- One more random byte has been drawn. -/
def advanceDraws (s : State) : State := { s with draws := s.draws + 1 }

/-- The fault mark of R205. -/
def setFaultMark (s : State) (m : Option Nat) : State := { s with faultMark := m }

/-- Push a return address: `stack[sp] <- w; sp <- sp + 1` (R101, R31). -/
def setPushed (s : State) (w : Word) (h : s.sp.val < 16) : State :=
  { s with stack := s.stack.set s.sp.val w, sp := ⟨s.sp.val + 1, by omega⟩ }

/-- `sp <- sp - 1`; the popped entry stays (R31, R102). -/
def setPopped (s : State) : State := { s with sp := ⟨s.sp.val - 1, by omega⟩ }

/-! ## Reads -/

/-- `V[x]`. -/
def reg (s : State) (x : Reg) : Byte := s.V[x.val]

/-- `key[k]`. -/
def keyDown (s : State) (k : Fin 16) : Bool := s.key[k.val]

/-! ## Turning an instruction away -/

/-- `report c` (R10, R206): the report output is `c`, the instruction becomes a no-op; the fetch advance
of `pc` stands. -/
def reject (c : Report) (s : State) : Result := .next (setReport s c)

/-- `raise AddressFault(a)` (R10, R205): the event has no next state. -/
def raiseAddressFault (a : Nat) : Result := .fault (.addressFault a)

/-- Check all `n` effective addresses from `base` on before the instruction goes on (R54, R56). -/
def accessing (base n : Nat) (go : Result) : Result :=
  match firstBad oorPolicy base n with
  | some a => raiseAddressFault a
  | none => go

/-! ## Program counter and stack -/

/-- `skip` (R10): `pc <- (pc + 2) mod 65536`. -/
def skip (s : State) : State := setPc s (s.pc + 2)

/-- Skip the next instruction when the condition is true (spec/41_conditional_skip.md). -/
def skipIf (c : Bool) (s : State) : State := if c then skip s else s

/-- `pc <- (pc - 2) mod 65536`: the same instruction is fetched next cycle (R151). -/
def rewind (s : State) : State := setPc s (s.pc - 2)

/-- Push `w` unless the stack already holds `limit` return addresses (R32, R101). -/
def pushReturn (limit : Fin 17) (w : Word) (s : State) : Option State :=
  if h : s.sp < limit then some (setPushed s w (by omega)) else none

/-- Pop a return address unless the stack is empty (R32, R102). -/
def popReturn (s : State) : Option (Word × State) :=
  if h : 0 < s.sp.val then some (s.stack[s.sp.val - 1]'(by omega), setPopped s) else none

/-! ## Fetch -/

/-- Fetch the word at `pc`: two byte reads, big-endian, or the address that faults (R52, R56, R70). -/
def fetchWord (s : State) : Except Nat Word :=
  match firstBad oorPolicy s.pc.toNat 2 with
  | some a => .error a
  | none =>
    .ok (wordOfBytes (s.mem.read (reach oorPolicy s.pc.toNat))
      (s.mem.read (reach oorPolicy (s.pc.toNat + 1))))

/-- What a Cycle event does between fetch and dispatch: `pc <- (a + 2) mod 65536`, `report_out = None`
(R70). -/
def beginCycle (s : State) : State := setReport (setPc s (s.pc + 2)) .none

end Sys2Proof.Machine
end

