-- ==== Sys2Proof/Machine/Operands.lean ====
section
/-! DEFINITION. The operand forms: the one addressing mode `I + k` (spec/43_index_memory.md), register
ranges, the shift source, the glyph address, decimal digits, the sprite origin and the masked random byte. -/

namespace Sys2Proof.Machine

/-- The base of the addressing mode: effective addresses are `I + k` as unbounded integers (R56). -/
def base (s : State) : Nat := s.I.toNat

/-- The `n` bytes at `I`, `I + 1`, ... (R50). -/
def bytesAtI (s : State) (n : Nat) : List Byte := loadBytes oorPolicy s.mem (base s) n

/-- Memory with `bs` stored at `I`, `I + 1`, ... (R50). -/
def storedAtI (s : State) (bs : List Byte) : Memory := storeBytes oorPolicy s.mem (base s) bs

/-- The latched values of `V[0]` to `V[x]` (R144). -/
def regRange (s : State) (x : Reg) : List Byte := s.V.toList.take (x.val + 1)

/-- `V[k] <- b` for the bytes of a list, `k` counting up from `k` (R145). -/
def loadRegs (v : Vector Byte 16) (k : Nat) : List Byte → Vector Byte 16
  | [] => v
  | b :: bs => loadRegs (v.setIfInBounds k b) (k + 1) bs

/-- What the range instructions add to `I` (R144, R145, D9). -/
def advanceOf : Config.RangeAdvance → Reg → Word
  | .xPlus1, x => BitVec.ofNat 16 (x.val + 1)
  | .xPlus2, x => BitVec.ofNat 16 (x.val + 2)

/-- The register SHR and SHL shift (R128, R130, D7). -/
def shiftOperand : Config.ShiftSource → Reg → Reg → Reg
  | .vx, x, _ => x
  | .vy, _, y => y

/-- The address of the glyph of digit `d`: `0x050 + 5 * d` (R142). -/
def glyphAddress (d : Byte) : Word :=
  BitVec.ofNat 16 (Config.glyphBase + Config.glyphBytes * d.toNat)

/-- The decimal digits of a byte, hundreds first, one per byte (R143). -/
def decimalDigits (b : Byte) : List Byte :=
  [BitVec.ofNat 8 (b.toNat / 100), BitVec.ofNat 8 (b.toNat / 10 % 10), BitVec.ofNat 8 (b.toNat % 10)]

/-- The lowest-numbered key that is down (R151). -/
def lowestKeyDown (s : State) : Option Nat :=
  (List.range 16).find? (fun k => s.key.toList.getD k false)

/-- The column of the sprite's origin: it wraps (R166). -/
def originColumn (b : Byte) : Nat := b.toNat % Config.displayW

/-- The row of the sprite's origin: it wraps (R166). -/
def originRow (b : Byte) : Nat := b.toNat % Config.displayH

/-- `rand and kk` (R160). -/
def maskedRandom (rand kk : Byte) : Byte := rand &&& kk

/-- The random byte the next draw gives: the free value (R37). -/
def nextRandom (s : State) : Byte := Config.randByte s.draws

end Sys2Proof.Machine
end

