-- ==== Sys2Proof/Machine/Flags.lean ====
section
/-! DEFINITION. The flag computations (spec/10_state.md R22) and the order of the flag write and the
result write (R25). -/

namespace Sys2Proof.Machine

/-- A flag as the byte written to VF: 1 or 0. -/
def flagByte (c : Bool) : Byte := if c then 1 else 0

/-- ADD: 1 if the unsigned sum exceeds 255 (R126). -/
def carryFlag (a b : Byte) : Byte := flagByte (decide (255 < a.toNat + b.toNat))

/-- SUB with minuend `a` and subtrahend `b`: 1 if `a ≥ b` before the subtraction (R127, R129). -/
def noBorrowFlag (a b : Byte) : Byte := flagByte (decide (b.toNat ≤ a.toNat))

/-- SHR: the original least significant bit (R128). -/
def shiftRightFlag (a : Byte) : Byte := flagByte (a.getLsbD 0)

/-- SHL: the original most significant bit (R130). -/
def shiftLeftFlag (a : Byte) : Byte := flagByte (a.getLsbD 7)

/-- DRW: 1 if some plotted pixel was on before its plot (R166). -/
def collisionFlag (hit : Bool) : Byte := flagByte hit

/-- Write the flag to VF and the result to `V[x]`. Under `flag_first` the result is written last, so with
`x = F` VF keeps the result (R25, D6). -/
def setFlagAndResult : Config.VfOrder → State → Reg → Byte → Byte → State
  | .flagFirst, s, x, flag, result => setReg (setReg s regVF flag) x result
  | .resultFirst, s, x, flag, result => setReg (setReg s x result) regVF flag

end Sys2Proof.Machine
end

