-- ==== Sys2Proof/Machine/Alu.lean ====
section
/-! DEFINITION. Register load, arithmetic, logic and shift (spec/42_register_alu.md). Sources are read
from the state before the instruction (R24). -/

namespace Sys2Proof.Machine

/-- LD Vx, kk (R120). -/
def execLdImm (x : Reg) (kk : Byte) (s : State) : Result := .next (setReg s x kk)

/-- ADD Vx, kk (R121): modulo 256, no flag. -/
def execAddImm (x : Reg) (kk : Byte) (s : State) : Result := .next (setReg s x (reg s x + kk))

/-- LD Vx, Vy (R122). -/
def execLdReg (x y : Reg) (s : State) : Result := .next (setReg s x (reg s y))

/-- OR Vx, Vy (R123). -/
def execOrReg (x y : Reg) (s : State) : Result := .next (setReg s x (reg s x ||| reg s y))

/-- AND Vx, Vy (R124). -/
def execAndReg (x y : Reg) (s : State) : Result := .next (setReg s x (reg s x &&& reg s y))

/-- XOR Vx, Vy (R125). -/
def execXorReg (x y : Reg) (s : State) : Result := .next (setReg s x (reg s x ^^^ reg s y))

/-- ADD Vx, Vy (R126). -/
def execAddReg (x y : Reg) (s : State) : Result :=
  .next (setFlagAndResult vfOrder s x (carryFlag (reg s x) (reg s y)) (reg s x + reg s y))

/-- SUB Vx, Vy (R127). -/
def execSubReg (x y : Reg) (s : State) : Result :=
  .next (setFlagAndResult vfOrder s x (noBorrowFlag (reg s x) (reg s y)) (reg s x - reg s y))

/-- SUBN Vx, Vy (R129). -/
def execSubnReg (x y : Reg) (s : State) : Result :=
  .next (setFlagAndResult vfOrder s x (noBorrowFlag (reg s y) (reg s x)) (reg s y - reg s x))

/-- SHR Vx (R128): logical, by one bit. -/
def execShr (x y : Reg) (s : State) : Result :=
  let v := reg s (shiftOperand shiftSource x y)
  .next (setFlagAndResult vfOrder s x (shiftRightFlag v) (v >>> 1))

/-- SHL Vx (R130): logical, by one bit. -/
def execShl (x y : Reg) (s : State) : Result :=
  let v := reg s (shiftOperand shiftSource x y)
  .next (setFlagAndResult vfOrder s x (shiftLeftFlag v) (v <<< 1))

end Sys2Proof.Machine
end

