-- ==== Sys2Proof/Machine/Control.lean ====
section
/-! DEFINITION. Control transfer (spec/40_control_transfer.md). `pc` is the advanced counter (R10). -/

namespace Sys2Proof.Machine

/-- JP nnn (R100). -/
def execJp (nnn : Addr12) (s : State) : Result := .next (setPc s (zext16OfAddr nnn))

/-- CALL nnn (R101); rejected with StackOverflow when the stack is full (R201). -/
def execCall (nnn : Addr12) (s : State) : Result :=
  match pushReturn stackLimit s.pc s with
  | some t => .next (setPc t (zext16OfAddr nnn))
  | none => reject .stackOverflow s

/-- RET (R102); rejected with StackUnderflow when the stack is empty (R202). -/
def execRet (s : State) : Result :=
  match popReturn s with
  | some (w, t) => .next (setPc t w)
  | none => reject .stackUnderflow s

/-- JP V0, nnn (R103). -/
def execJpV0 (nnn : Addr12) (s : State) : Result :=
  .next (setPc s (zext16OfByte (reg s 0) + zext16OfAddr nnn))

end Sys2Proof.Machine
end

