-- ==== Sys2Proof/Machine/Display.lean ====
section
/-! DEFINITION. The display instructions (spec/46_display.md). -/

namespace Sys2Proof.Machine

/-- `disp[r][c]`; false outside the 64×32 grid. -/
def pixel (d : Display) (r c : Nat) : Bool :=
  if h : r < 32 then d[r].getLsbD c else false

/-- `disp[r][c] <- disp[r][c] xor 1`. -/
def togglePixel (d : Display) (r c : Nat) : Display :=
  if h : r < 32 then d.set r (d[r] ^^^ (1#64 <<< c)) else d

/-- A drawing in progress: the display so far, and whether some plotted pixel was on before its plot. -/
structure Plot where
  disp : Display
  hit : Bool
  deriving DecidableEq, Repr

/-- XOR-plot one pixel; one that falls outside the grid is dropped, not wrapped (R166). -/
def plotPixel (p : Plot) (r c : Nat) : Plot :=
  if c < Config.displayW ∧ r < Config.displayH then ⟨togglePixel p.disp r c, p.hit || pixel p.disp r c⟩
  else p

/-- One column of a sprite row: bit `7 - col` of the sprite byte is its column `col` (R166, D10). -/
def plotColumn (b : Byte) (r c0 : Nat) (p : Plot) (col : Nat) : Plot :=
  if b.getLsbD (7 - col) then plotPixel p r (c0 + col) else p

/-- One row of a sprite: the eight columns from left to right. -/
def plotRow (b : Byte) (r c0 : Nat) (p : Plot) : Plot :=
  (List.range 8).foldl (plotColumn b r c0) p

/-- The rows of a sprite from row `r` down, its left edge at column `c0`. -/
def plotSprite (r c0 : Nat) (p : Plot) : List Byte → Plot
  | [] => p
  | b :: bs => plotSprite (r + 1) c0 (plotRow b r c0 p) bs

/-- The dark display. -/
def clearedDisplay : Display := Vector.replicate 32 0

/-- CLS (R165): every pixel off, `draw_flag` set. -/
def execCls (s : State) : Result := .next (setDisplay s clearedDisplay)

/-- DRW Vx, Vy, n (R166): the coordinates and the sprite bytes are those before the instruction. -/
def execDrw (x y : Reg) (n : Fin 16) (s : State) : Result :=
  let p := plotSprite (originRow (reg s y)) (originColumn (reg s x)) ⟨s.disp, false⟩
    (bytesAtI s n.val)
  accessing (base s) n.val (.next (setDisplay (setReg s regVF (collisionFlag p.hit)) p.disp))

end Sys2Proof.Machine
end

