-- ==== Sys2Proof/Machine/Index.lean ====
section
/-! DEFINITION. The index register and memory (spec/43_index_memory.md). -/

namespace Sys2Proof.Machine

/-- LD I, nnn (R140). -/
def execLdI (nnn : Addr12) (s : State) : Result := .next (setI s (zext16OfAddr nnn))

/-- ADD I, Vx (R141): modulo 65536, no flag. -/
def execAddI (x : Reg) (s : State) : Result := .next (setI s (s.I + zext16OfByte (reg s x)))

/-- LD F, Vx (R142); rejected with InvalidGlyphDigit when the whole byte is above 0x0F (R204). -/
def execLdF (x : Reg) (s : State) : Result :=
  if (reg s x).toNat ≤ 0x0F then .next (setI s (glyphAddress (reg s x)))
  else reject .invalidGlyphDigit s

/-- LD B, Vx (R143): `I` is not changed. -/
def execLdB (x : Reg) (s : State) : Result :=
  accessing (base s) 3 (.next (setMem s (storedAtI s (decimalDigits (reg s x)))))

/-- LD [I], Vx (R144). -/
def execStoreRange (x : Reg) (s : State) : Result :=
  accessing (base s) (x.val + 1)
    (.next (setI (setMem s (storedAtI s (regRange s x))) (s.I + advanceOf rangeAdvance x)))

/-- LD Vx, [I] (R145). -/
def execLoadRange (x : Reg) (s : State) : Result :=
  accessing (base s) (x.val + 1)
    (.next (setI (setRegs s (loadRegs s.V 0 (bytesAtI s (x.val + 1))))
      (s.I + advanceOf rangeAdvance x)))

end Sys2Proof.Machine
end

