-- ==== Sys2Proof/Machine/Nop.lean ====
section
/-! DEFINITION. The no-op handler of unmapped words (spec/47_unmapped_nop.md). -/

namespace Sys2Proof.Machine

/-- NOP (R180): nothing beyond the fetch advance, and no report. -/
def execNop (_ : Word) (s : State) : Result := .next s

end Sys2Proof.Machine
end

