-- ==== Sys2Proof/Machine/Random.lean ====
section
/-! DEFINITION. The random instruction (spec/45_random.md). -/

namespace Sys2Proof.Machine

/-- RND Vx, kk (R160): the byte is free (Config.randByte), and the next RND gets another draw. -/
def execRnd (x : Reg) (kk : Byte) (s : State) : Result :=
  .next (advanceDraws (setReg s x (maskedRandom (nextRandom s) kk)))

end Sys2Proof.Machine
end

