-- ==== Sys2Proof/Machine/Skip.lean ====
section
/-! DEFINITION. Conditional skip (spec/41_conditional_skip.md). -/

namespace Sys2Proof.Machine

/-- SE Vx, kk (R110). -/
def execSeImm (x : Reg) (kk : Byte) (s : State) : Result := .next (skipIf (reg s x == kk) s)

/-- SNE Vx, kk (R111). -/
def execSneImm (x : Reg) (kk : Byte) (s : State) : Result := .next (skipIf (reg s x != kk) s)

/-- SE Vx, Vy (R112). -/
def execSeReg (x y : Reg) (s : State) : Result := .next (skipIf (reg s x == reg s y) s)

/-- SNE Vx, Vy (R113). -/
def execSneReg (x y : Reg) (s : State) : Result := .next (skipIf (reg s x != reg s y) s)

/-- Look up the key a register names and skip when it is down (`down = true`) or up; a value of 16 or
more is InvalidKeyIndex, and then nothing is skipped either way (R114, R115, R203). -/
def skipOnKey (down : Bool) (b : Byte) (s : State) : Result :=
  if h : b.toNat < 16 then .next (skipIf (keyDown s ⟨b.toNat, h⟩ == down) s)
  else reject .invalidKeyIndex s

/-- SKP Vx (R114). -/
def execSkp (x : Reg) (s : State) : Result := skipOnKey true (reg s x) s

/-- SKNP Vx (R115). -/
def execSknp (x : Reg) (s : State) : Result := skipOnKey false (reg s x) s

end Sys2Proof.Machine
end

