-- ==== Sys2Proof/Machine/Timer.lean ====
section
/-! DEFINITION. Timers and the key wait (spec/44_timer_key.md). -/

namespace Sys2Proof.Machine

/-- LD Vx, DT (R150). -/
def execLdVxDt (x : Reg) (s : State) : Result := .next (setReg s x s.DT)

/-- LD Vx, K (R151): take the lowest key that is down; with none down, rewind `pc` so that the same
instruction runs again. -/
def execLdVxK (x : Reg) (s : State) : Result :=
  match lowestKeyDown s with
  | some k => .next (setReg s x (BitVec.ofNat 8 k))
  | none => .next (rewind s)

/-- LD DT, Vx (R152). -/
def execLdDtVx (x : Reg) (s : State) : Result := .next (setDT s (reg s x))

/-- LD ST, Vx (R153): no cue is raised. -/
def execLdStVx (x : Reg) (s : State) : Result := .next (setST s (reg s x))

end Sys2Proof.Machine
end

