-- ==== Sys2Proof/Machine/Step.lean ====
section
/-! DEFINITION. One step: the Cycle event (spec/30_encoding.md R70). -/

namespace Sys2Proof.Machine

/-- The Cycle event: fetch, advance, dispatch, one instruction (R70). A machine that carries the fault
mark has no further Cycle (R205, D26). -/
def step (s : State) : Host.Outcome State Fault Refusal :=
  match s.faultMark with
  | some a => raiseAddressFault a
  | none =>
    match fetchWord s with
    | .error a => raiseAddressFault a
    | .ok w => exec (decode w) (beginCycle s)

/-- `s` with the instruction word that spec/opcode_table.json numbers `w` stored where `step` fetches:
its two bytes at `pc` in memory order. The fetch also needs `pc` to be an address with two bytes of
memory (else it is put at the entry 0x200) and no fault mark (R56, R205). -/
def State.withFetchWord (s : State) (nbits w : Nat) : State :=
  let pc := if s.pc.toNat + 1 < Config.memSize then s.pc else BitVec.ofNat 16 Config.entry
  setFaultMark
    (setPc (setMem s (storeBytes oorPolicy s.mem pc.toNat (bytesOfWord (tableWord nbits w)))) pc) none

end Sys2Proof.Machine
end

