-- ==== Sys2Proof/Machine/Events.lean ====
section
/-! DEFINITION. The external events (spec/60_exceptions.md R210 to R217, spec/70_reset_and_hazards.md R240
to R245) and what the collaborators can read. Each event is one atomic step; they may come in any order
between two Cycle events (spec/20_memory.md R61). -/

namespace Sys2Proof.Machine

/-- The events of R9. Cycle's free input `rand` is the next draw of `Config.randByte`
(notes/assumptions/6.md). The arguments of KeyWrite are numbers so that a write outside the keypad can be
attempted, and refused. -/
inductive Event where
  | reset
  | loadImage (bytes : List Byte)
  | cycle
  | tick60
  | keyWrite (k b : Nat)
  | drawFlagClear
  | observe
  deriving DecidableEq, Repr

/-- Reset (R240, R241): the whole state is replaced, the fault mark cleared. Only the count of draws goes
on, so that no later draw repeats an earlier one (R37). -/
def resetEvent (s : State) : State := { State.reset with draws := s.draws }

/-- LoadImage (R243, R244): an image of more than 3584 bytes writes nothing and reports OversizeImage. -/
def loadImage (bytes : List Byte) (s : State) : State :=
  if Config.imageMax < bytes.length then setReport s .oversizeImage
  else setReport (setMem s (storeBytes oorPolicy s.mem Config.entry bytes)) .none

/-- `if t ≠ 0 then t <- t - 1`: a timer at 0 stays at 0 (R210). -/
def countDown (t : Byte) : Byte := if t = 0 then 0 else t - 1

/-- Tick60 (R210): both timers count down; the cue is raised exactly when `ST` goes from 1 to 0 (R211). -/
def tick60 (s : State) : State :=
  setCue (setST (setDT s (countDown s.DT)) (countDown s.ST)) (s.ST == 1)

/-- KeyWrite(k, b) (R213): refused when `k > 15` or `b` is neither 0 nor 1. -/
def keyWrite (k b : Nat) (s : State) : Result :=
  if h : k < 16 ∧ b < 2 then .next (setKey s ⟨k, h.1⟩ (b == 1))
  else .refused (.keyWriteOutOfRange k b)

/-- DrawFlagClear (R215). -/
def drawFlagClear (s : State) : State := setDrawFlag s false

/-- An event on a machine that is not faulted. Observe changes nothing (R214). -/
def eventEffect : Event → State → Result
  | .reset, s => .next (resetEvent s)
  | .loadImage bytes, s => .next (loadImage bytes s)
  | .cycle, s => step s
  | .tick60, s => .next (tick60 s)
  | .keyWrite k b, s => keyWrite k b s
  | .drawFlagClear, s => .next (drawFlagClear s)
  | .observe, s => .next s

/-- An event on a machine whose fault mark is `a`: no event but Reset has meaning (R205, D26). -/
def faultedEvent (a : Nat) : Event → State → Result
  | .reset, s => .next (resetEvent s)
  | .loadImage _, _ => raiseAddressFault a
  | .cycle, _ => raiseAddressFault a
  | .tick60, _ => raiseAddressFault a
  | .keyWrite _ _, _ => raiseAddressFault a
  | .drawFlagClear, _ => raiseAddressFault a
  | .observe, _ => raiseAddressFault a

/-- An event. -/
def event (e : Event) (s : State) : Result :=
  match s.faultMark with
  | none => eventEffect e s
  | some a => faultedEvent a e s

/-- The machine after an event was triggered, faults included (R205): a fault keeps the state as it was
and leaves the mark; a refused KeyWrite was no event. -/
def deliver (s : State) (e : Event) : State :=
  match event e s with
  | .next t => t
  | .fault (.addressFault a) => setFaultMark s (some a)
  | .refused _ => s

/-- The machine after a sequence of events. -/
def deliverAll (s : State) (es : List Event) : State := es.foldl deliver s

/-! ## The read ports (R214) -/

/-- The display port: pixel `(r, c)` as a 32-bit value. -/
def pixelPort (s : State) (r c : Nat) : BitVec 32 :=
  if pixel s.disp r c then 0xFFFFFFFF else 0x00000000

/-- The display port as a linear array: pixel `(r, c)` is at index `r * 64 + c` (D18). -/
def linearPort (s : State) (k : Nat) : BitVec 32 :=
  pixelPort s (k / Config.displayW) (k % Config.displayW)

/-- What the presentation collaborator reads. -/
structure Observation where
  pixels : List (BitVec 32)
  drawFlag : Bool
  ST : Byte
  DT : Byte
  deriving DecidableEq, Repr

/-- Observe (R214): the 2048 pixel values in port order, the draw flag and the timers. -/
def observe (s : State) : Observation where
  pixels := (List.range (Config.displayW * Config.displayH)).map (linearPort s)
  drawFlag := s.drawFlag
  ST := s.ST
  DT := s.DT

/-- The numeric code of a report (R200, D17). -/
def Report.code : Report → Nat
  | .none => 0
  | .stackOverflow => 1
  | .stackUnderflow => 2
  | .invalidKeyIndex => 3
  | .invalidGlyphDigit => 4
  | .oversizeImage => 5

end Sys2Proof.Machine
end

