-- ==== Sys2Proof/Safety.lean ====
section
/-! DEFINITION. What claims are stated with: the machine invariant, reachable states, faultless steps, the
suggested end of a run (spec/70_reset_and_hazards.md R250), and the spec's tables of what each instruction
reads, writes, accesses and does to `pc`, written from the tables and not from the meanings. -/

namespace Sys2Proof.Machine

/-- What holds of every reachable state beyond the ranges the types of `State` give (spec/10_state.md
R40): memory is canonical, no return address on the stack is above 0x1000 (the advanced counter of a CALL
that was fetched, R101, R102), and `pc` is at most 0x10FE, the farthest target of JP V0 (R103). -/
structure Inv (s : State) : Prop where
  memWf : s.mem.wf = true
  pcBound : s.pc.toNat ≤ 0x10FE
  stackBound : ∀ k : Fin 16, (s.stack[k.val]).toNat ≤ 0x1000

/-- The states events lead to from reset. -/
inductive Reachable : State → Prop where
  | reset : Reachable State.reset
  | event (s : State) (e : Event) : Reachable s → Reachable (deliver s e)

/-- The next Cycle event does not fault. -/
def stepSafe (s : State) : Bool :=
  match step s with
  | .next _ => true
  | .fault _ => false
  | .refused _ => false

/-- The suggested end of a run (R250): not faulted, and the instruction at `pc` is `JP pc`. -/
def runEnded (s : State) : Bool :=
  match s.faultMark, fetchWord s with
  | none, .ok w => decode w == .jp (s.pc.setWidth 12) && decide (s.pc.toNat < Config.memSize)
  | none, .error _ => false
  | some _, _ => false

/-- The two bytes at `pc` as an instruction word: the byte at `pc` is bits 15..8 (R52). -/
def wordAtPc (s : State) : Word := s.mem.read s.pc.toNat ++ s.mem.read (s.pc.toNat + 1)

/-- The next Cycle event fetches, and what it fetches is `i`. -/
def fetches (s : State) (i : Instr) : Prop :=
  s.faultMark = none ∧ s.pc.toNat ≤ 0xFFE ∧ decode (wordAtPc s) = i

/-- Every byte of memory reads the same. -/
def sameMemory (s t : State) : Prop := ∀ a, t.mem.read a = s.mem.read a

/-- Every register but `x` reads the same. -/
def sameRegsBut (x : Reg) (s t : State) : Prop := ∀ z, z ≠ x → reg t z = reg s z

/-- The "reads" column of R23 (spec/10_state.md). -/
def readsReg (i : Instr) (z : Reg) : Prop :=
  match i with
  | .jpV0 _ => z = 0
  | .seImm x _ | .sneImm x _ | .skp x | .sknp x | .addImm x _ => z = x
  | .ldReg _ y => z = y
  | .seReg x y | .sneReg x y | .orReg x y | .andReg x y | .xorReg x y | .addReg x y | .subReg x y
  | .subnReg x y | .drw x y _ => z = x ∨ z = y
  | .shr x _ | .shl x _ => z = x
  | .addI x | .ldF x | .ldB x | .ldDtVx x | .ldStVx x => z = x
  | .storeRange x => z.val ≤ x.val
  | .cls | .ret | .jp _ | .call _ | .ldImm _ _ | .ldI _ | .rnd _ _ | .ldVxDt _ | .ldVxK _
  | .loadRange _ | .nop _ => False

/-- The "writes" column of R23. LD Vx,K writes only when a key is down. -/
def writesReg (i : Instr) (z : Reg) : Prop :=
  match i with
  | .ldImm x _ | .addImm x _ | .ldReg x _ | .orReg x _ | .andReg x _ | .xorReg x _ | .rnd x _
  | .ldVxDt x | .ldVxK x => z = x
  | .addReg x _ | .subReg x _ | .subnReg x _ | .shr x _ | .shl x _ => z = regVF ∨ z = x
  | .drw _ _ _ => z = regVF
  | .loadRange x => z.val ≤ x.val
  | .cls | .ret | .jp _ | .call _ | .seImm _ _ | .sneImm _ _ | .seReg _ _ | .sneReg _ _ | .ldI _
  | .jpV0 _ | .skp _ | .sknp _ | .ldDtVx _ | .ldStVx _ | .addI _ | .ldF _ | .ldB _
  | .storeRange _ | .nop _ => False

/-- How many bytes of memory an instruction accesses from `I` on (R50). -/
def accessCount : Instr → Nat
  | .ldB _ => 3
  | .storeRange x | .loadRange x => x.val + 1
  | .drw _ _ n => n.val
  | .cls | .ret | .jp _ | .call _ | .seImm _ _ | .sneImm _ _ | .seReg _ _ | .ldImm _ _
  | .addImm _ _ | .ldReg _ _ | .orReg _ _ | .andReg _ _ | .xorReg _ _ | .addReg _ _ | .subReg _ _
  | .shr _ _ | .subnReg _ _ | .shl _ _ | .sneReg _ _ | .ldI _ | .jpV0 _ | .rnd _ _ | .skp _
  | .sknp _ | .ldVxDt _ | .ldVxK _ | .ldDtVx _ | .ldStVx _ | .addI _ | .ldF _ | .nop _ => 0

/-- How many bytes of memory an instruction stores, from `base s` on (R50). -/
def storeCount : Instr → Nat
  | .ldB _ => 3
  | .storeRange x => x.val + 1
  | .cls | .ret | .jp _ | .call _ | .seImm _ _ | .sneImm _ _ | .seReg _ _ | .ldImm _ _
  | .addImm _ _ | .ldReg _ _ | .orReg _ _ | .andReg _ _ | .xorReg _ _ | .addReg _ _ | .subReg _ _
  | .shr _ _ | .subnReg _ _ | .shl _ _ | .sneReg _ _ | .ldI _ | .jpV0 _ | .rnd _ _ | .drw _ _ _
  | .skp _ | .sknp _ | .ldVxDt _ | .ldVxK _ | .ldDtVx _ | .ldStVx _ | .addI _ | .ldF _
  | .loadRange _ | .nop _ => 0

/-- The table of R30: `pc` after the Cycle event, `a` the address the instruction was fetched from and
`s` the state the instruction runs in. All sums are modulo 65536. -/
def pcAfter (i : Instr) (a : Word) (s : State) : Word :=
  match i with
  | .jp nnn => zext16OfAddr nnn
  | .jpV0 nnn => zext16OfByte (reg s 0) + zext16OfAddr nnn
  | .call nnn => if s.sp.val < 16 then zext16OfAddr nnn else a + 2
  | .ret => if h : 0 < s.sp.val then s.stack[s.sp.val - 1]'(by omega) else a + 2
  | .seImm x kk => if reg s x = kk then a + 4 else a + 2
  | .sneImm x kk => if reg s x = kk then a + 2 else a + 4
  | .seReg x y => if reg s x = reg s y then a + 4 else a + 2
  | .sneReg x y => if reg s x = reg s y then a + 2 else a + 4
  | .skp x => if ∃ k : Fin 16, (reg s x).toNat = k.val ∧ keyDown s k = true then a + 4 else a + 2
  | .sknp x => if ∃ k : Fin 16, (reg s x).toNat = k.val ∧ keyDown s k = false then a + 4 else a + 2
  | .ldVxK _ => if ∃ k : Fin 16, keyDown s k = true then a + 2 else a
  | .cls | .ldImm _ _ | .addImm _ _ | .ldReg _ _ | .orReg _ _ | .andReg _ _ | .xorReg _ _
  | .addReg _ _ | .subReg _ _ | .shr _ _ | .subnReg _ _ | .shl _ _ | .ldI _ | .rnd _ _
  | .drw _ _ _ | .ldVxDt _ | .ldDtVx _ | .ldStVx _ | .addI _ | .ldF _ | .ldB _ | .storeRange _
  | .loadRange _ | .nop _ => a + 2

/-- The "raised by" and "when" columns of R200 for the instructions. -/
def reportDue (i : Instr) (s : State) : Report :=
  match i with
  | .call _ => if s.sp.val = 16 then .stackOverflow else .none
  | .ret => if s.sp.val = 0 then .stackUnderflow else .none
  | .skp x | .sknp x => if 16 ≤ (reg s x).toNat then .invalidKeyIndex else .none
  | .ldF x => if 0x0F < (reg s x).toNat then .invalidGlyphDigit else .none
  | .cls | .jp _ | .seImm _ _ | .sneImm _ _ | .seReg _ _ | .ldImm _ _ | .addImm _ _ | .ldReg _ _
  | .orReg _ _ | .andReg _ _ | .xorReg _ _ | .addReg _ _ | .subReg _ _ | .shr _ _ | .subnReg _ _
  | .shl _ _ | .sneReg _ _ | .ldI _ | .jpV0 _ | .rnd _ _ | .drw _ _ _ | .ldVxDt _ | .ldVxK _
  | .ldDtVx _ | .ldStVx _ | .addI _ | .ldB _ | .storeRange _ | .loadRange _ | .nop _ => .none

/-- Whether DRW with origin registers `x`, `y` and `n` rows covers the pixel at row `r`, column `c`: the
origin wraps, bit 7 of a sprite byte is the leftmost column, row `k` of the sprite is the byte at `I + k`
(R166). -/
def spriteOn (s : State) (x y : Reg) (n : Fin 16) (r c : Nat) : Prop :=
  (reg s y).toNat % 32 ≤ r ∧ r < (reg s y).toNat % 32 + n.val ∧
  (reg s x).toNat % 64 ≤ c ∧ c < (reg s x).toNat % 64 + 8 ∧
  (s.mem.read (s.I.toNat + (r - (reg s y).toNat % 32))).getLsbD (7 - (c - (reg s x).toNat % 64)) = true

/-- What is left of a state when the parts no instruction reads are blanked: `ST` (R33), `draw_flag`
(R36) and the outputs (R38, R211). -/
def hideUnread (s : State) : State :=
  { s with ST := 0, drawFlag := false, reportOut := .none, soundCueOut := false }

end Sys2Proof.Machine
end

