-- ==== Sys2Proof/Certificates/Slice0/Obligations.lean ====
section
/-! DEFINITION. The statements for the provers. "Derived" statements rest on a clause the spec marks as its
own decision or inference; each says which. -/

open Sys2Proof
open Sys2Proof.Machine

/-! ## Encoding -/

/-- Decode and encode agree for every well-formed instruction, on words and on bytes (R70 to R82). The
selector values are the spec's own (R78, D12; notes/assumptions/1.md), and the encoder's choice for ignored
bits is that of R79 (notes/assumptions/16.md). -/
def Obligations.DecodeOfEncodeIsTheInstruction : Prop :=
  ∀ i : Instr, i.wellFormed = true →
    decode (encode i) = i ∧ ∀ rest, decodeBytes (encodeBytes i ++ rest) = .ok (i, rest)

/-- Decoding is total and well formed, and NOP is exactly the unmapped words of R82 (R77; the sets are an
inference the spec marks as derived). -/
def Obligations.UnmappedWordsDecodeToNop : Prop :=
  (∀ w : Word, (decode w).wellFormed = true) ∧
  (∀ w : Word, unmapped w = true ↔ decode w = .nop w) ∧
  (∀ w v : Word, decode w = .nop v → v = w)

/-- The decoder of R80 follows the opcode map of R79: the row of the decoded instruction selects the word, a
row that selects the word is the row of the decoded instruction (so rows are mutually exclusive), and a word
no row selects is a NOP. The map is the spec's own (R78, D12). -/
def Obligations.DecodeFollowsTheOpcodeMap : Prop :=
  (∀ w : Word, rowSelects (rowOf (decode w)) w = true) ∧
  (∀ w : Word, ∀ row ∈ opcodeRows, rowSelects row w = true → rowOf (decode w) = row) ∧
  (∀ w : Word, (∀ row ∈ opcodeRows, rowSelects row w = false) → decode w = .nop w)

/-- The operand fields as numbers (R72): `x` is bits 11..8, `y` bits 7..4, `n` bits 3..0, `kk` bits 7..0,
`nnn` bits 11..0. (R72 takes the height field from general knowledge.) -/
def Obligations.OperandFieldsSitAtTheirBits : Prop :=
  ∀ w : Word, (xField w).val = w.toNat / 256 % 16 ∧ (yField w).val = w.toNat / 16 % 16 ∧
    (nField w).toNat = w.toNat % 16 ∧ (kkField w).toNat = w.toNat % 256 ∧
    (nnnField w).toNat = w.toNat % 4096 ∧ (opField w).toNat = w.toNat / 4096

/-- Words the spec writes out decode to the instructions it names (R78, R79, R81, R180): a sanity check. -/
def Obligations.WordsOfTheSpecDecode : Prop :=
  decode 0x6A05 = .ldImm 10 0x05 ∧ decode 0x6B03 = .ldImm 11 0x03 ∧ decode 0x8AB4 = .addReg 10 11 ∧
  decode 0x00E0 = .cls ∧ decode 0x0000 = .cls ∧ decode 0x0ABE = .ret ∧ decode 0x220A = .call 0x20A ∧
  decode 0xD012 = .drw 0 1 2 ∧ decode 0xE30E = .skp 3 ∧ decode 0xE3F1 = .sknp 3 ∧
  decode 0xF265 = .loadRange 2 ∧ decode 0x8018 = .nop 0x8018

/-! ## The Cycle event -/

/-- A step runs the decoded instruction (R70): when the machine is not faulted and `pc` is at most 0xFFE, the
step is `exec` of the instruction the two bytes at `pc` decode to, in the state with `pc` advanced by 2 and
the report output cleared. -/
def Obligations.StepRunsTheDecodedInstruction : Prop :=
  ∀ (s : State) (i : Instr), fetches s i →
    step s = exec i { s with pc := s.pc + 2, reportOut := .none }

/-- A fetch above 0xFFE faults at the first address above 0xFFF (R56, R205; the spec's decision D3,
notes/assumptions/4.md). -/
def Obligations.FetchAboveMemoryFaults : Prop :=
  ∀ s : State, s.faultMark = none → 0xFFE < s.pc.toNat →
    step s = .fault (.addressFault (max s.pc.toNat 0x1000))

/-- Instruction fetch is big-endian (R52): the byte at `a` is bits 15..8, the byte at `a + 1` bits 7..0, and a
byte stored at either address is seen in that half. -/
def Obligations.FetchIsBigEndian : Prop :=
  (∀ s : State, s.pc.toNat ≤ 0xFFE →
    fetchWord s = .ok (s.mem.read s.pc.toNat ++ s.mem.read (s.pc.toNat + 1))) ∧
  (∀ (s : State) (b : Byte), s.pc.toNat ≤ 0xFFE →
    ∃ w, fetchWord (setMem s (s.mem.write s.pc.toNat b)) = .ok w ∧ w.extractLsb' 8 8 = b ∧
      w.extractLsb' 0 8 = s.mem.read (s.pc.toNat + 1)) ∧
  (∀ (s : State) (b : Byte), s.pc.toNat ≤ 0xFFE →
    ∃ w, fetchWord (setMem s (s.mem.write (s.pc.toNat + 1) b)) = .ok w ∧ w.extractLsb' 0 8 = b ∧
      w.extractLsb' 8 8 = s.mem.read s.pc.toNat)

/-- Self-modifying code needs no synchronisation (R60, which the spec marks as derived): after a range store
to the address `pc` holds, the next fetch is the stored V0 and V1. -/
def Obligations.StoredWordIsFetchedNext : Prop :=
  ∀ (x : Reg) (s t : State), s.I = s.pc → 1 ≤ x.val → exec (.storeRange x) s = .next t →
    fetchWord t = .ok (reg s 0 ++ reg s 1)

/-- A Cycle event always ends in a next state without the fault mark, or in an AddressFault at an address
above 0xFFF; a machine already faulted keeps its address; nothing is ever refused (R205, R250; fault policy
D3, fault mark D26). -/
def Obligations.StepEndsInNextOrAddressFault : Prop :=
  ∀ s : State,
    (s.faultMark = none ∧ ∃ t, step s = .next t ∧ t.faultMark = none) ∨
    (∃ a, step s = .fault (.addressFault a) ∧
      (s.faultMark = some a ∨ (s.faultMark = none ∧ 0xFFF < a)))

/-- Which instructions fault, and when (R56; the spec's decision D3): an instruction that accesses `n ≥ 1`
bytes from `I` on faults exactly when `I + n - 1 > 0xFFF`, at the first address above 0xFFF; in every other
case, and every other instruction, completes. -/
def Obligations.InstructionsFaultExactlyAboveMemory : Prop :=
  ∀ (i : Instr) (s : State),
    if 1 ≤ accessCount i ∧ 0xFFF < s.I.toNat + accessCount i - 1 then
      exec i s = .fault (.addressFault (max s.I.toNat 0x1000))
    else ∃ t, exec i s = .next t

/-! ## Invariants -/

/-- Every step keeps the invariant: canonical memory, `pc` at most 0x10FE, no return address above 0x1000.
(The invariant is the model's reading of R30, R40, R101, R103 under the default parameters.) -/
def Obligations.StepKeepsTheInvariant : Prop :=
  ∀ s t : State, Inv s → step s = .next t → Inv t

/-- The reset state meets the invariant (R39). -/
def Obligations.ResetMeetsTheInvariant : Prop := Inv State.reset

/-- Every event keeps the invariant, faults and refusals included, so every state reachable from reset by any
sequence of events meets it (R40; R61: events in any order). -/
def Obligations.EveryReachableStateMeetsTheInvariant : Prop :=
  (∀ (s : State) (e : Event), Inv s → Inv (deliver s e)) ∧ ∀ s : State, Reachable s → Inv s

/-! ## Frames over all instructions -/

/-- The memory frame: an instruction that completes leaves every byte as it was except the `storeCount` bytes
from `base s`, the address the storing meanings use, on (R50). -/
def Obligations.MemoryFrameOfEveryInstruction : Prop :=
  ∀ (i : Instr) (s t : State), exec i s = .next t →
    ∀ a, (a < base s ∨ base s + storeCount i ≤ a) → t.mem.read a = s.mem.read a

/-- The register frame: an instruction that completes leaves every register as it was that R23 does not list
as written by it; VF is written only by the six flag-producing instructions or as a named destination (R22,
R23; D8). -/
def Obligations.RegisterFrameOfEveryInstruction : Prop :=
  ∀ (i : Instr) (s t : State), exec i s = .next t → ∀ z, ¬ writesReg i z → reg t z = reg s z

/-- The frame of everything else (the "written by" column of R20; the outputs and the draw counter are the
model's own, notes/assumptions/6.md, 11.md, 12.md): which instructions may change `I`, the stack, the timers,
the display, the draws and the report; no instruction changes the keypad, the cue or the mark. -/
def Obligations.StateFrameOfEveryInstruction : Prop :=
  ∀ (i : Instr) (s t : State), exec i s = .next t →
    (t.key = s.key ∧ t.soundCueOut = s.soundCueOut ∧ t.faultMark = s.faultMark) ∧
    (t.I ≠ s.I → (∃ n, i = .ldI n) ∨ (∃ x, i = .addI x) ∨ (∃ x, i = .ldF x) ∨
      (∃ x, i = .storeRange x) ∨ (∃ x, i = .loadRange x)) ∧
    (t.stack ≠ s.stack → ∃ n, i = .call n) ∧
    (t.sp ≠ s.sp → (∃ n, i = .call n) ∨ i = .ret) ∧
    (t.DT ≠ s.DT → ∃ x, i = .ldDtVx x) ∧
    (t.ST ≠ s.ST → ∃ x, i = .ldStVx x) ∧
    (t.disp ≠ s.disp ∨ t.drawFlag ≠ s.drawFlag → i = .cls ∨ ∃ x y n, i = .drw x y n) ∧
    (t.draws ≠ s.draws → ∃ x kk, i = .rnd x kk)

/-- The program counter after every instruction is the one R30 tabulates (which the spec marks as derived),
`a` being the address the instruction was fetched from. -/
def Obligations.PcAfterEachInstruction : Prop :=
  ∀ (i : Instr) (a : Word) (s t : State), s.pc = a + 2 → exec i s = .next t → t.pc = pcAfter i a s

/-- A step reports exactly the condition R200 tabulates for its instruction, else None (stack limit 16 by D1,
report values by D17). -/
def Obligations.ReportIsTheTabulatedCondition : Prop :=
  ∀ (i : Instr) (s t : State), fetches s i → step s = .next t → t.reportOut = reportDue i s

/-! ## What the program cannot see -/

/-- No instruction reads `ST` (R33), `draw_flag` (R36), a report (R38) or the cue (R211): two states that
differ only there step alike, or fault alike. -/
def Obligations.UnreadStateDoesNotReachTheProgram : Prop :=
  ∀ s s' : State, hideUnread s = hideUnread s' →
    (∃ t t', step s = .next t ∧ step s' = .next t' ∧ hideUnread t = hideUnread t') ∨
    (∃ f, step s = .fault f ∧ step s' = .fault f)

/-- An instruction depends on no register but those R23 lists as read (shift source by D7): changing another
register changes the outcome in that register alone, and only if the instruction does not write it. -/
def Obligations.UnreadRegistersDoNotMatter : Prop :=
  ∀ (i : Instr) (s t : State) (z : Reg) (b : Byte), ¬ readsReg i z → exec i s = .next t →
    ∃ t', exec i (setReg s z b) = .next t' ∧ t' = setReg t z (reg t' z) ∧
      (¬ writesReg i z → reg t' z = b) ∧ (reg t' z = reg t z ∨ reg t' z = b)

/-! ## Control transfer -/

/-- JP nnn (R100; the selector value is the spec's own, D12, notes/assumptions/1.md): encoding and effect;
nothing but `pc` changes. -/
def Obligations.JumpGoesToItsAddress : Prop :=
  (∀ w : Word, w &&& 0xF000 = 0x1000 → decode w = .jp (w.extractLsb' 0 12)) ∧
  (∀ (nnn : Addr12) (s : State),
    ∃ t, exec (.jp nnn) s = .next t ∧ t.pc.toNat = nnn.toNat ∧ t = { s with pc := t.pc })

/-- CALL nnn (R101, R201; the limit 16 is the spec's decision D1): with fewer than 16 return addresses held
the advanced counter is pushed and control goes to `nnn`; with 16 held it is rejected with StackOverflow,
nothing else changed. -/
def Obligations.CallPushesOrReportsOverflow : Prop :=
  (∀ (nnn : Addr12) (s : State), s.sp.val < 16 →
    ∃ t, exec (.call nnn) s = .next t ∧
      (∀ k : Fin 16, t.stack[k.val] = if k.val = s.sp.val then s.pc else s.stack[k.val]) ∧
      t.sp.val = s.sp.val + 1 ∧ t.pc.toNat = nnn.toNat ∧
      t = { s with stack := t.stack, sp := t.sp, pc := t.pc }) ∧
  (∀ (nnn : Addr12) (s : State), s.sp.val = 16 →
    exec (.call nnn) s = .next { s with reportOut := .stackOverflow })

/-- RET (R102; the selector value is the spec's own, D12, notes/assumptions/1.md): encoding; with `sp ≥ 1` the
last pushed address is popped into `pc` and the entry stays; with `sp = 0` it is rejected with StackUnderflow,
nothing else changed. -/
def Obligations.ReturnPopsOrReportsUnderflow : Prop :=
  (∀ w : Word, w &&& 0xF00F = 0x000E → decode w = .ret) ∧
  (∀ (s : State) (k : Fin 16), s.sp.val = k.val + 1 →
    ∃ t, exec .ret s = .next t ∧ t.sp.val = k.val ∧ t.pc = s.stack[k.val] ∧
      t = { s with sp := t.sp, pc := t.pc }) ∧
  (∀ s : State, s.sp.val = 0 → exec .ret s = .next { s with reportOut := .stackUnderflow })

/-- JP V0, nnn (R103; the selector value is the spec's own, D12, notes/assumptions/1.md): encoding and effect;
the sum is not reduced to 12 bits. -/
def Obligations.JumpWithOffsetAddsV0 : Prop :=
  (∀ w : Word, w &&& 0xF000 = 0xB000 → decode w = .jpV0 (w.extractLsb' 0 12)) ∧
  (∀ (nnn : Addr12) (s : State),
    ∃ t, exec (.jpV0 nnn) s = .next t ∧ t.pc.toNat = (reg s 0).toNat + nnn.toNat ∧
      t = { s with pc := t.pc })

/-- A call followed by a return comes back to the instruction after the call with the stack depth and the live
entries restored, whatever `pc` and registers the subroutine left (R101, R102, DOC1's property S4). -/
def Obligations.CallThenReturnComesBack : Prop :=
  ∀ (nnn : Addr12) (s t u : State), s.sp.val < 16 → exec (.call nnn) s = .next t →
    u.stack = t.stack → u.sp = t.sp →
    ∃ v, exec .ret u = .next v ∧ v.pc = s.pc ∧ v.sp = s.sp ∧
      ∀ k : Fin 16, k.val < s.sp.val → v.stack[k.val] = s.stack[k.val]

/-! ## Conditional skip -/

/-- SE and SNE (R110 to R113; the selector values are the spec's own, D12, notes/assumptions/1.md): encodings;
skip two bytes exactly when the unsigned values are equal (SE) or differ (SNE); nothing but `pc` changes. -/
def Obligations.CompareSkipsTheNextInstruction : Prop :=
  ((∀ w : Word, w &&& 0xF000 = 0x3000 → decode w = .seImm (w.extractLsb' 8 4).toFin (w.extractLsb' 0 8)) ∧
   (∀ w : Word, w &&& 0xF000 = 0x4000 → decode w = .sneImm (w.extractLsb' 8 4).toFin (w.extractLsb' 0 8)) ∧
   (∀ w : Word, w &&& 0xF000 = 0x5000 →
     decode w = .seReg (w.extractLsb' 8 4).toFin (w.extractLsb' 4 4).toFin) ∧
   (∀ w : Word, w &&& 0xF000 = 0x9000 →
     decode w = .sneReg (w.extractLsb' 8 4).toFin (w.extractLsb' 4 4).toFin)) ∧
  (∀ (x y : Reg) (kk : Byte) (s : State),
    exec (.seImm x kk) s =
      .next { s with pc := if (reg s x).toNat = kk.toNat then s.pc + 2 else s.pc } ∧
    exec (.sneImm x kk) s =
      .next { s with pc := if (reg s x).toNat = kk.toNat then s.pc else s.pc + 2 } ∧
    exec (.seReg x y) s =
      .next { s with pc := if (reg s x).toNat = (reg s y).toNat then s.pc + 2 else s.pc } ∧
    exec (.sneReg x y) s =
      .next { s with pc := if (reg s x).toNat = (reg s y).toNat then s.pc else s.pc + 2 })

/-- SKP and SKNP (R114, R115; the selector values are the spec's own, D12, notes/assumptions/1.md): encodings;
for a register value that names a key exactly one of them skips; for a value of 16 or more neither skips and
InvalidKeyIndex is reported. -/
def Obligations.KeySkipsFollowTheKeypad : Prop :=
  ((∀ w : Word, w &&& 0xF00F = 0xE00E → decode w = .skp (w.extractLsb' 8 4).toFin) ∧
   (∀ w : Word, w &&& 0xF00F = 0xE001 → decode w = .sknp (w.extractLsb' 8 4).toFin)) ∧
  (∀ (x : Reg) (s : State) (k : Fin 16), (reg s x).toNat = k.val →
    exec (.skp x) s = .next { s with pc := if keyDown s k = true then s.pc + 2 else s.pc } ∧
    exec (.sknp x) s = .next { s with pc := if keyDown s k = true then s.pc else s.pc + 2 }) ∧
  (∀ (x : Reg) (s : State), 16 ≤ (reg s x).toNat →
    exec (.skp x) s = .next { s with reportOut := .invalidKeyIndex } ∧
    exec (.sknp x) s = .next { s with reportOut := .invalidKeyIndex })

/-- StackUnderflow, InvalidKeyIndex and InvalidGlyphDigit (R202, R203, R204) over a whole Cycle event:
everything is unchanged except `pc`, which is advanced by 2 (R206; the spec's own decision D23,
notes/assumptions/24.md), and the report output (the model's latch, notes/assumptions/11.md); LD Vx,K never
raises InvalidKeyIndex. -/
def Obligations.RejectedInstructionsOnlyReport : Prop :=
  (∀ s : State, fetches s .ret → s.sp.val = 0 →
    step s = .next { s with pc := s.pc + 2, reportOut := .stackUnderflow }) ∧
  (∀ (x : Reg) (s : State), fetches s (.skp x) ∨ fetches s (.sknp x) → 16 ≤ (reg s x).toNat →
    step s = .next { s with pc := s.pc + 2, reportOut := .invalidKeyIndex }) ∧
  (∀ (x : Reg) (s : State), fetches s (.ldF x) → 0x0F < (reg s x).toNat →
    step s = .next { s with pc := s.pc + 2, reportOut := .invalidGlyphDigit }) ∧
  (∀ (x : Reg) (s t : State), fetches s (.ldVxK x) → step s = .next t →
    t.reportOut ≠ .invalidKeyIndex)

/-! ## Registers and arithmetic -/

/-- LD Vx, kk (R120): encoding and effect; nothing but the destination changes, also for `x = F`. -/
def Obligations.LoadImmediateWritesTheByte : Prop :=
  (∀ w : Word, w &&& 0xF000 = 0x6000 →
    decode w = .ldImm (w.extractLsb' 8 4).toFin (w.extractLsb' 0 8)) ∧
  (∀ (x : Reg) (kk : Byte) (s : State),
    ∃ t, exec (.ldImm x kk) s = .next t ∧ reg t x = kk ∧ sameRegsBut x s t ∧ t = { s with V := t.V })

/-- LD Vx, Vy (R122; the selector value is the spec's own, D12, notes/assumptions/1.md): encoding and effect;
nothing but the destination changes. -/
def Obligations.CopyTakesTheSourceRegister : Prop :=
  (∀ w : Word, w &&& 0xF00F = 0x8000 →
    decode w = .ldReg (w.extractLsb' 8 4).toFin (w.extractLsb' 4 4).toFin) ∧
  (∀ (x y : Reg) (s : State),
    ∃ t, exec (.ldReg x y) s = .next t ∧ reg t x = reg s y ∧ sameRegsBut x s t ∧
      t = { s with V := t.V })

/-- ADD Vx, kk (R121): modulo 256, and no flag is written (the spec's decision D8). -/
def Obligations.AddImmediateWrapsWithoutFlag : Prop :=
  ∀ (x : Reg) (kk : Byte) (s : State),
    ∃ t, exec (.addImm x kk) s = .next t ∧ (reg t x).toNat = ((reg s x).toNat + kk.toNat) % 256 ∧
      sameRegsBut x s t ∧ t = { s with V := t.V }

/-- OR, AND, XOR (R123, R124, R125): bit by bit; VF is unchanged unless it is the destination (the spec's
decision D8). -/
def Obligations.LogicIsBitwiseWithoutFlag : Prop :=
  ∀ (x y : Reg) (s : State),
    (∃ t, exec (.orReg x y) s = .next t ∧
      (∀ j < 8, (reg t x).getLsbD j = ((reg s x).getLsbD j || (reg s y).getLsbD j)) ∧
      sameRegsBut x s t ∧ t = { s with V := t.V }) ∧
    (∃ t, exec (.andReg x y) s = .next t ∧
      (∀ j < 8, (reg t x).getLsbD j = ((reg s x).getLsbD j && (reg s y).getLsbD j)) ∧
      sameRegsBut x s t ∧ t = { s with V := t.V }) ∧
    (∃ t, exec (.xorReg x y) s = .next t ∧
      (∀ j < 8, (reg t x).getLsbD j = ((reg s x).getLsbD j != (reg s y).getLsbD j)) ∧
      sameRegsBut x s t ∧ t = { s with V := t.V })

/-- ADD Vx, Vy (R126): the sum modulo 256 in `Vx`, and VF = 1 exactly when the unsigned sum exceeds 255; with
`x = F` VF keeps the sum (the spec's decision D6). -/
def Obligations.AddSetsCarry : Prop :=
  ∀ (x y : Reg) (s : State),
    ∃ t, exec (.addReg x y) s = .next t ∧
      (reg t x).toNat = ((reg s x).toNat + (reg s y).toNat) % 256 ∧
      (x ≠ 15 → (reg t 15).toNat = if 255 < (reg s x).toNat + (reg s y).toNat then 1 else 0) ∧
      (∀ z, z ≠ x → z ≠ 15 → reg t z = reg s z) ∧ t = { s with V := t.V }

/-- SUB and SUBN (R127, R129): the difference modulo 256, and VF = 1 exactly when there is no borrow; with `x
= F` VF keeps the difference (the spec's decision D6). -/
def Obligations.SubtractSetsNoBorrow : Prop :=
  ∀ (x y : Reg) (s : State),
    (∃ t, exec (.subReg x y) s = .next t ∧
      (reg t x).toNat = (256 + (reg s x).toNat - (reg s y).toNat) % 256 ∧
      (x ≠ 15 → (reg t 15).toNat = if (reg s y).toNat ≤ (reg s x).toNat then 1 else 0) ∧
      (∀ z, z ≠ x → z ≠ 15 → reg t z = reg s z) ∧ t = { s with V := t.V }) ∧
    (∃ t, exec (.subnReg x y) s = .next t ∧
      (reg t x).toNat = (256 + (reg s y).toNat - (reg s x).toNat) % 256 ∧
      (x ≠ 15 → (reg t 15).toNat = if (reg s x).toNat ≤ (reg s y).toNat then 1 else 0) ∧
      (∀ z, z ≠ x → z ≠ 15 → reg t z = reg s z) ∧ t = { s with V := t.V })

/-- SHR and SHL (R128, R130): by one bit, in place (the spec's decision D7), VF = the bit shifted out; with `x
= F` VF keeps the result (D6). -/
def Obligations.ShiftsByOneSetTheBitShiftedOut : Prop :=
  ∀ (x y : Reg) (s : State),
    (∃ t, exec (.shr x y) s = .next t ∧ (reg t x).toNat = (reg s x).toNat / 2 ∧
      (x ≠ 15 → (reg t 15).toNat = (reg s x).toNat % 2) ∧
      (∀ z, z ≠ x → z ≠ 15 → reg t z = reg s z) ∧ t = { s with V := t.V }) ∧
    (∃ t, exec (.shl x y) s = .next t ∧ (reg t x).toNat = (reg s x).toNat * 2 % 256 ∧
      (x ≠ 15 → (reg t 15).toNat = (reg s x).toNat / 128) ∧
      (∀ z, z ≠ x → z ≠ 15 → reg t z = reg s z) ∧ t = { s with V := t.V })

/-! ## Index and memory -/

/-- LD I, nnn (R140; the selector value is the spec's own, D12, notes/assumptions/1.md): encoding and effect;
nothing but `I` changes. -/
def Obligations.LoadIndexTakesTheAddress : Prop :=
  (∀ w : Word, w &&& 0xF000 = 0xA000 → decode w = .ldI (w.extractLsb' 0 12)) ∧
  (∀ (nnn : Addr12) (s : State),
    ∃ t, exec (.ldI nnn) s = .next t ∧ t.I.toNat = nnn.toNat ∧ t = { s with I := t.I })

/-- ADD I, Vx (R141): modulo 65536, VF unchanged (the spec's decision D8), no fault. -/
def Obligations.AddToIndexWrapsAt16Bits : Prop :=
  ∀ (x : Reg) (s : State),
    ∃ t, exec (.addI x) s = .next t ∧ t.I.toNat = (s.I.toNat + (reg s x).toNat) % 65536 ∧
      t = { s with I := t.I }

/-- LD F, Vx (R142; the address formula is an inference the spec marks as derived): the digit's glyph address,
or InvalidGlyphDigit with `I` unchanged when the whole byte is above 0x0F. -/
def Obligations.GlyphLookupPointsAtTheDigit : Prop :=
  (∀ (x : Reg) (s : State), (reg s x).toNat ≤ 0x0F →
    ∃ t, exec (.ldF x) s = .next t ∧ t.I.toNat = 0x050 + 5 * (reg s x).toNat ∧
      t = { s with I := t.I }) ∧
  (∀ (x : Reg) (s : State), 0x0F < (reg s x).toNat →
    exec (.ldF x) s = .next { s with reportOut := .invalidGlyphDigit })

/-- LD B, Vx (R143): the three decimal digits at `I`, `I + 1`, `I + 2`; every other byte, `I` and the rest
unchanged. When it faults is `InstructionsFaultExactlyAboveMemory` (the spec's decision D3). -/
def Obligations.DecimalDigitsAreStored : Prop :=
  ∀ (x : Reg) (s : State), s.I.toNat + 2 ≤ 0xFFF →
    ∃ t, exec (.ldB x) s = .next t ∧
      (t.mem.read (base s)).toNat = (reg s x).toNat / 100 ∧
      (t.mem.read (base s + 1)).toNat = (reg s x).toNat / 10 % 10 ∧
      (t.mem.read (base s + 2)).toNat = (reg s x).toNat % 10 ∧
      (∀ a, (a < base s ∨ base s + 3 ≤ a) → t.mem.read a = s.mem.read a) ∧
      t = { s with mem := t.mem }

/-- LD [I], Vx (R144; the advance `x + 1` is the spec's decision D9): V0 to Vx are stored from `I` on, `I`
ends one past the last byte, every other byte and the rest unchanged. -/
def Obligations.RangeStoreWritesV0ToVx : Prop :=
  ∀ (x : Reg) (s : State), s.I.toNat + x.val ≤ 0xFFF →
    ∃ t, exec (.storeRange x) s = .next t ∧
      (∀ z : Reg, z.val ≤ x.val → t.mem.read (base s + z.val) = reg s z) ∧
      (∀ a, (a < base s ∨ base s + x.val < a) → t.mem.read a = s.mem.read a) ∧
      t.I.toNat = s.I.toNat + x.val + 1 ∧ t = { s with mem := t.mem, I := t.I }

/-- LD Vx, [I] (R145; the advance is the spec's decision D9): V0 to Vx are loaded from `I` on, registers above
`x` and all of memory unchanged. -/
def Obligations.RangeLoadFillsV0ToVx : Prop :=
  ∀ (x : Reg) (s : State), s.I.toNat + x.val ≤ 0xFFF →
    ∃ t, exec (.loadRange x) s = .next t ∧
      (∀ z : Reg, z.val ≤ x.val → reg t z = s.mem.read (base s + z.val)) ∧
      (∀ z : Reg, x.val < z.val → reg t z = reg s z) ∧
      sameMemory s t ∧ t.I.toNat = s.I.toNat + x.val + 1 ∧ t = { s with V := t.V, I := t.I }

/-- A range load from where a range store wrote brings every stored register back, whatever the registers hold
in between (R144, R145). -/
def Obligations.RangeLoadUndoesRangeStore : Prop :=
  ∀ (x : Reg) (s t u : State), exec (.storeRange x) s = .next t → u.mem = t.mem → u.I = s.I →
    ∃ v, exec (.loadRange x) u = .next v ∧ v.I = t.I ∧ ∀ z : Reg, z.val ≤ x.val → reg v z = reg s z

/-! ## Timers, keys, random byte -/

/-- LD Vx, DT; LD DT, Vx; LD ST, Vx (R150, R152, R153; the selector values are the spec's own, D12,
notes/assumptions/1.md): encodings and effects; nothing else changes, the sound cue among it. -/
def Obligations.TimerRegistersAreReadAndWritten : Prop :=
  ((∀ w : Word, w &&& 0xF0FF = 0xF007 → decode w = .ldVxDt (w.extractLsb' 8 4).toFin) ∧
   (∀ w : Word, w &&& 0xF0FF = 0xF015 → decode w = .ldDtVx (w.extractLsb' 8 4).toFin) ∧
   (∀ w : Word, w &&& 0xF0FF = 0xF018 → decode w = .ldStVx (w.extractLsb' 8 4).toFin)) ∧
  (∀ (x : Reg) (s : State),
    (∃ t, exec (.ldVxDt x) s = .next t ∧ reg t x = s.DT ∧ sameRegsBut x s t ∧ t = { s with V := t.V }) ∧
    exec (.ldDtVx x) s = .next { s with DT := reg s x } ∧
    exec (.ldStVx x) s = .next { s with ST := reg s x })

/-- LD Vx, K (R151; the selector value is the spec's own, D12, notes/assumptions/1.md): encoding; with a key
down the lowest is stored and the machine proceeds; with none down `pc` is rewound by 2, so a whole waiting
Cycle event leaves everything as it was (but that the report output is None, the model's latch,
notes/assumptions/11.md). -/
def Obligations.KeyWaitTakesTheLowestKey : Prop :=
  (∀ w : Word, w &&& 0xF0FF = 0xF00A → decode w = .ldVxK (w.extractLsb' 8 4).toFin) ∧
  (∀ (x : Reg) (s : State) (k : Fin 16), keyDown s k = true → (∀ j : Fin 16, j < k → keyDown s j = false) →
    ∃ t, exec (.ldVxK x) s = .next t ∧ (reg t x).toNat = k.val ∧ sameRegsBut x s t ∧
      t = { s with V := t.V }) ∧
  (∀ (x : Reg) (s : State), (∀ k : Fin 16, keyDown s k = false) →
    exec (.ldVxK x) s = .next { s with pc := s.pc - 2 }) ∧
  (∀ (x : Reg) (s : State), fetches s (.ldVxK x) → (∀ k : Fin 16, keyDown s k = false) →
    step s = .next { s with reportOut := .none })

/-- RND Vx, kk (R160; the draw is the free value of notes/assumptions/6.md, D15): `Vx` is the drawn byte
masked with `kk`, a bit whose mask bit is 0 is 0, the next draw is another one, and nothing else changes. It
holds whatever the draws are: `Config.randByte` is opaque. -/
def Obligations.RandomByteIsMasked : Prop :=
  ∀ (x : Reg) (kk : Byte) (s : State),
    ∃ t, exec (.rnd x kk) s = .next t ∧
      (∀ j < 8, (reg t x).getLsbD j = ((Config.randByte s.draws).getLsbD j && kk.getLsbD j)) ∧
      (∀ j < 8, kk.getLsbD j = false → (reg t x).getLsbD j = false) ∧
      sameRegsBut x s t ∧ t.draws = s.draws + 1 ∧ t = { s with V := t.V, draws := t.draws }

/-! ## Display -/

/-- CLS (R165): every pixel off and `draw_flag` set (the spec's decision D14); nothing else changes. -/
def Obligations.ClearTurnsEveryPixelOff : Prop :=
  ∀ s : State, ∃ t, exec .cls s = .next t ∧ (∀ r c, pixel t.disp r c = false) ∧ t.drawFlag = true ∧
    t = { s with disp := t.disp, drawFlag := t.drawFlag }

/-- DRW Vx, Vy, n (R166; geometry D10, latching D5, fault D3): the scan equals its closed form. Every pixel of
the grid that the sprite covers is inverted and no other; VF is 1 exactly when a covered pixel was on;
`draw_flag` is set; every other register, memory and the rest unchanged. Also for `n = 0`, for `x = F` and `y
= F`. -/
def Obligations.DrawXorsTheSprite : Prop :=
  ∀ (x y : Reg) (n : Fin 16) (s : State), n.val = 0 ∨ s.I.toNat + n.val - 1 ≤ 0xFFF →
    ∃ t, exec (.drw x y n) s = .next t ∧
      (∀ r < 32, ∀ c < 64,
        (pixel t.disp r c = true ↔ ¬(pixel s.disp r c = true ↔ spriteOn s x y n r c))) ∧
      (reg t 15 = 0 ∨ reg t 15 = 1) ∧
      (reg t 15 = 1 ↔ ∃ r < 32, ∃ c < 64, spriteOn s x y n r c ∧ pixel s.disp r c = true) ∧
      sameRegsBut 15 s t ∧ t.drawFlag = true ∧
      t = { s with V := t.V, disp := t.disp, drawFlag := t.drawFlag }

/-- Drawing the same sprite twice restores the display, and the second collision flag is 1 exactly when the
first draw turned a pixel on (R166 (d), DOC1's property S6). `x` and `y` are not F, because VF changes between
the draws and the location with it; the single draws with F are in `DrawXorsTheSprite`. -/
def Obligations.DrawingTwiceRestoresTheDisplay : Prop :=
  ∀ (x y : Reg) (n : Fin 16) (s t : State), x ≠ 15 → y ≠ 15 → exec (.drw x y n) s = .next t →
    ∃ u, exec (.drw x y n) t = .next u ∧ u.disp = s.disp ∧
      (reg u 15 = 1 ↔ ∃ r < 32, ∃ c < 64, pixel s.disp r c = false ∧ pixel t.disp r c = true)

/-- NOP (R180; counted as the 35th instruction by D13): every unmapped word is a complete no-op, and a whole
Cycle event only advances `pc`. -/
def Obligations.UnmappedWordOnlyAdvancesPc : Prop :=
  (∀ (w : Word) (s : State), exec (.nop w) s = .next s) ∧
  (∀ s : State, s.faultMark = none → s.pc.toNat ≤ 0xFFE → unmapped (wordAtPc s) = true →
    step s = .next { s with pc := s.pc + 2, reportOut := .none })

/-! ## External events -/

/-- Reset (R39, R240, R241; `I`, `sp`, display and draw flag by D2, glyph bytes by D11) from any state, a
faulted one included. The draw counter and the outputs are the model's own (notes/assumptions/6.md, 11.md,
12.md). -/
def Obligations.ResetReplacesTheWholeState : Prop :=
  ∀ s : State, ∃ t, event .reset s = .next t ∧
    (∀ k : Fin 80, t.mem.read (0x050 + k.val) = glyphTable.getD k.val 0) ∧
    (∀ a, (a < 0x050 ∨ 0x0A0 ≤ a) → t.mem.read a = 0) ∧
    (∀ z, reg t z = 0) ∧ t.I = 0 ∧ t.pc = 0x0200 ∧ (∀ k : Fin 16, t.stack[k.val] = 0) ∧ t.sp = 0 ∧
    t.DT = 0 ∧ t.ST = 0 ∧ (∀ k, keyDown t k = false) ∧ (∀ r c, pixel t.disp r c = false) ∧
    t.drawFlag = false ∧ t.faultMark = none

/-- LoadImage (R243): an image of at most 3584 bytes is copied to 0x200 on; a longer one is reported and
changes nothing at all. (The report output is the model's latch, notes/assumptions/11.md; that the accepted
load changes nothing else is in `CollaboratorsTouchOnlyTheirOwn`.) -/
def Obligations.ImageIsLoadedOrRejectedWhole : Prop :=
  (∀ (bytes : List Byte) (s : State), s.faultMark = none → bytes.length ≤ 3584 →
    ∃ t, event (.loadImage bytes) s = .next t ∧
      (∀ k (h : k < bytes.length), t.mem.read (0x200 + k) = bytes[k]) ∧ t.reportOut = .none) ∧
  (∀ (bytes : List Byte) (s : State), s.faultMark = none → 3584 < bytes.length →
    event (.loadImage bytes) s = .next { s with reportOut := .oversizeImage })

/-- Tick60 (R210, R211; one event for both timers by D16, the cue by D25): each timer is decremented when
nonzero, the cue is 1 exactly when `ST` goes from 1 to 0, nothing else changes. -/
def Obligations.TickCountsBothTimersDown : Prop :=
  ∀ s : State, s.faultMark = none →
    ∃ t, event .tick60 s = .next t ∧ t.DT.toNat = s.DT.toNat - 1 ∧ t.ST.toNat = s.ST.toNat - 1 ∧
      (t.soundCueOut = true ↔ s.ST = 1 ∧ t.ST = 0) ∧
      t = { s with DT := t.DT, ST := t.ST, soundCueOut := t.soundCueOut }

/-- After `n` Tick60 events each timer has gone down by `n` and stopped at 0: there is no wrap (R210). -/
def Obligations.TicksStopTheTimersAtZero : Prop :=
  ∀ (n : Nat) (s : State), s.faultMark = none →
    (deliverAll s (List.replicate n .tick60)).DT.toNat = s.DT.toNat - n ∧
    (deliverAll s (List.replicate n .tick60)).ST.toNat = s.ST.toNat - n ∧
    (deliverAll s (List.replicate n .tick60)).pc = s.pc

/-- KeyWrite (R213): one key flag and nothing else; outside its ranges it is refused (the spec's decision
D24). -/
def Obligations.KeyWriteSetsOneKey : Prop :=
  (∀ (k : Fin 16) (b : Nat) (s : State), s.faultMark = none → b < 2 →
    ∃ t, event (.keyWrite k.val b) s = .next t ∧ (keyDown t k = true ↔ b = 1) ∧
      (∀ j, j ≠ k → keyDown t j = keyDown s j) ∧ t = { s with key := t.key }) ∧
  (∀ (k b : Nat) (s : State), s.faultMark = none → (15 < k ∨ 1 < b) →
    event (.keyWrite k b) s = .refused (.keyWriteOutOfRange k b))

/-- DrawFlagClear (R215): the draw flag is cleared, the display and all else untouched; every CLS and DRW that
completes sets the flag whatever it drew (R36, R165; for CLS the spec's own decision D14,
notes/assumptions/25.md); and no event but DrawFlagClear and Reset clears it (R36). -/
def Obligations.DrawFlagIsClearedOnlyByItsEvents : Prop :=
  (∀ s : State, s.faultMark = none → event .drawFlagClear s = .next { s with drawFlag := false }) ∧
  (∀ (i : Instr) (s t : State), (i = .cls ∨ ∃ x y n, i = .drw x y n) → exec i s = .next t →
    t.drawFlag = true) ∧
  (∀ (s : State) (e : Event), s.drawFlag = true → (deliver s e).drawFlag = false →
    e = .drawFlagClear ∨ e = .reset)

/-- Observe (R214; the linear order is the spec's decision D18): it changes nothing, and the display port
shows pixel `(r, c)` at index `r * 64 + c` as all ones or all zeros. -/
def Obligations.ObserveShowsThePixels : Prop :=
  (∀ s : State, s.faultMark = none → event .observe s = .next s) ∧
  (∀ s : State, (observe s).pixels.length = 2048 ∧ (observe s).drawFlag = s.drawFlag ∧
    (observe s).ST = s.ST ∧ (observe s).DT = s.DT) ∧
  (∀ (s : State) (r c : Nat), r < 32 → c < 64 →
    (observe s).pixels[r * 64 + c]? =
      some (if pixel s.disp r c = true then 0xFFFFFFFF#32 else 0x00000000#32))

/-- The fault mark (R205, R241; the spec's decisions D3, D26): a step that faults leaves the state as it was
but for the mark; no sequence of events without Reset changes a faulted machine; Reset clears the mark. -/
def Obligations.FaultMarkStaysUntilReset : Prop :=
  (∀ (s : State) (a : Nat), step s = .fault (.addressFault a) →
    deliver s .cycle = { s with faultMark := some a }) ∧
  (∀ (s : State) (a : Nat) (es : List Event), s.faultMark = some a → (∀ e ∈ es, e ≠ .reset) →
    deliverAll s es = s) ∧
  (∀ s : State, (deliver s .reset).faultMark = none)

/-- No event but Cycle and Reset writes `V`, `I`, `pc`, the stack or the display, and no event but those and
LoadImage writes memory (R217; the spec's decision D24). An accepted LoadImage changes no byte outside the
image's and nothing else of the state but the report output (R244; the spec's decision D22). -/
def Obligations.CollaboratorsTouchOnlyTheirOwn : Prop :=
  ∀ (s : State) (e : Event), e ≠ .cycle → e ≠ .reset →
    (deliver s e).V = s.V ∧ (deliver s e).I = s.I ∧ (deliver s e).pc = s.pc ∧
    (deliver s e).stack = s.stack ∧ (deliver s e).sp = s.sp ∧ (deliver s e).disp = s.disp ∧
    (deliver s e).draws = s.draws ∧ ((∀ bytes, e ≠ .loadImage bytes) → sameMemory s (deliver s e)) ∧
    (∀ bytes t, e = .loadImage bytes → event e s = .next t →
      (∀ a, (a < 0x200 ∨ 0x200 + bytes.length ≤ a) → t.mem.read a = s.mem.read a) ∧
      t = { s with mem := t.mem, reportOut := t.reportOut })

/-- The end of a run (R250; the spec's decision D21): at a self-loop every later Cycle event changes nothing
(the report output is None, the model's latch), and the run stays ended. -/
def Obligations.EndedRunStaysEnded : Prop :=
  ∀ s : State, runEnded s = true →
    step s = .next { s with reportOut := .none } ∧ runEnded { s with reportOut := .none } = true
end

