-- ==== Sys2Proof/Laws/Decode.lean ====
section
/-! SUPPORT. The laws of the encoding: what each field reads from a word built by a format, and from a word
that a row of the opcode map selects. -/

namespace Sys2Proof

/-! ## Fields of the formats (R72, R73) -/

theorem getLsbD_formatA (op : BitVec 4) (nnn : Addr12) (i : Nat) :
    (formatA op nnn).getLsbD i = if i < 12 then nnn.getLsbD i else op.getLsbD (i - 12) :=
  BitVec.getLsbD_append

theorem getLsbD_formatXK (op : BitVec 4) (x : Reg) (kk : Byte) (i : Nat) :
    (formatXK op x kk).getLsbD i =
      if i < 8 then kk.getLsbD i
      else if i - 8 < 4 then (BitVec.ofFin x : BitVec 4).getLsbD (i - 8) else op.getLsbD (i - 8 - 4) := by
  rw [← BitVec.getLsbD_append, ← BitVec.getLsbD_append]
  rfl

theorem getLsbD_formatXYN (op : BitVec 4) (x y : Reg) (n : BitVec 4) (i : Nat) :
    (formatXYN op x y n).getLsbD i =
      if i < 4 then n.getLsbD i
      else if i - 4 < 4 then (BitVec.ofFin y : BitVec 4).getLsbD (i - 4)
      else if i - 4 - 4 < 4 then (BitVec.ofFin x : BitVec 4).getLsbD (i - 4 - 4)
      else op.getLsbD (i - 4 - 4 - 4) := by
  rw [← BitVec.getLsbD_append, ← BitVec.getLsbD_append, ← BitVec.getLsbD_append]
  rfl

@[simp] theorem opField_formatA (op : BitVec 4) (nnn : Addr12) : opField (formatA op nnn) = op := by
  refine BitVec.eq_of_getLsbD_eq fun i hi => ?_
  simp [opField, getLsbD_formatA, hi]

@[simp] theorem nnnField_formatA (op : BitVec 4) (nnn : Addr12) : nnnField (formatA op nnn) = nnn := by
  refine BitVec.eq_of_getLsbD_eq fun i hi => ?_
  simp [nnnField, getLsbD_formatA, hi]

@[simp] theorem opField_formatXK (op : BitVec 4) (x : Reg) (kk : Byte) :
    opField (formatXK op x kk) = op := by
  refine BitVec.eq_of_getLsbD_eq fun i hi => ?_
  simp [opField, getLsbD_formatXK, hi, show ¬ 12 + i < 8 by omega,
    show ¬ 12 + i - 8 < 4 by omega, show 12 + i - 8 - 4 = i by omega]

@[simp] theorem xField_formatXK (op : BitVec 4) (x : Reg) (kk : Byte) :
    xField (formatXK op x kk) = x := by
  have : (formatXK op x kk).extractLsb' 8 4 = BitVec.ofFin x := by
    refine BitVec.eq_of_getLsbD_eq fun i hi => ?_
    simp [getLsbD_formatXK, hi]
  rw [xField, this]

@[simp] theorem kkField_formatXK (op : BitVec 4) (x : Reg) (kk : Byte) :
    kkField (formatXK op x kk) = kk := by
  refine BitVec.eq_of_getLsbD_eq fun i hi => ?_
  simp [kkField, getLsbD_formatXK, hi]

/-- The low nibble of format XK is the low nibble of its byte. -/
@[simp] theorem nField_formatXK (op : BitVec 4) (x : Reg) (kk : Byte) :
    nField (formatXK op x kk) = kk.extractLsb' 0 4 := by
  refine BitVec.eq_of_getLsbD_eq fun i hi => ?_
  simp [nField, getLsbD_formatXK, hi, show i < 8 by omega]

@[simp] theorem opField_formatXYN (op : BitVec 4) (x y : Reg) (n : BitVec 4) :
    opField (formatXYN op x y n) = op := by
  refine BitVec.eq_of_getLsbD_eq fun i hi => ?_
  simp [opField, getLsbD_formatXYN, hi, show ¬ 12 + i < 4 by omega,
    show ¬ 12 + i - 4 < 4 by omega, show ¬ 12 + i - 4 - 4 < 4 by omega,
    show 12 + i - 4 - 4 - 4 = i by omega]

@[simp] theorem xField_formatXYN (op : BitVec 4) (x y : Reg) (n : BitVec 4) :
    xField (formatXYN op x y n) = x := by
  have : (formatXYN op x y n).extractLsb' 8 4 = BitVec.ofFin x := by
    refine BitVec.eq_of_getLsbD_eq fun i hi => ?_
    simp [getLsbD_formatXYN, hi, show ¬ 8 + i < 4 by omega,
      show ¬ 8 + i - 4 < 4 by omega, show 8 + i - 4 - 4 = i by omega]
  rw [xField, this]

@[simp] theorem yField_formatXYN (op : BitVec 4) (x y : Reg) (n : BitVec 4) :
    yField (formatXYN op x y n) = y := by
  have : (formatXYN op x y n).extractLsb' 4 4 = BitVec.ofFin y := by
    refine BitVec.eq_of_getLsbD_eq fun i hi => ?_
    simp [getLsbD_formatXYN, hi]
  rw [yField, this]

@[simp] theorem nField_formatXYN (op : BitVec 4) (x y : Reg) (n : BitVec 4) :
    nField (formatXYN op x y n) = n := by
  refine BitVec.eq_of_getLsbD_eq fun i hi => ?_
  simp [nField, getLsbD_formatXYN, hi]

/-! ## Fields of a word a row selects (R79) -/

/-- Where the mask of a row is all ones, the word's bits are those of the row's match. -/
theorem extract_of_masked {w k m : Word} (h : w &&& k = m) (i n : Nat)
    (hk : k.extractLsb' i n = BitVec.allOnes n) : w.extractLsb' i n = m.extractLsb' i n := by
  rw [← h, BitVec.extractLsb'_and, hk, BitVec.and_allOnes]

/-- A word selected by a mask on the primary selector alone. -/
theorem opField_of_masked {w m : Word} (h : w &&& 0xF000 = m) : opField w = m.extractLsb' 12 4 :=
  extract_of_masked h 12 4 (by decide)

/-- A word selected by the primary selector and the low nibble (families 0, 8 and E). -/
theorem selectors_of_maskedN {w m : Word} (h : w &&& 0xF00F = m) :
    opField w = m.extractLsb' 12 4 ∧ nField w = m.extractLsb' 0 4 :=
  ⟨extract_of_masked h 12 4 (by decide), extract_of_masked h 0 4 (by decide)⟩

/-- A word selected by the primary selector and the low byte (family F). -/
theorem selectors_of_maskedKK {w m : Word} (h : w &&& 0xF0FF = m) :
    opField w = m.extractLsb' 12 4 ∧ kkField w = m.extractLsb' 0 8 :=
  ⟨extract_of_masked h 12 4 (by decide), extract_of_masked h 0 8 (by decide)⟩

/-- What a mask on the primary selector leaves of a word. -/
theorem and_maskOp (w : Word) : w &&& 0xF000 = formatA (opField w) 0 := by
  refine BitVec.eq_of_getLsbD_eq fun i hi => ?_
  rw [getLsbD_formatA]
  simp only [BitVec.getLsbD_and, opField, BitVec.getLsbD_extractLsb']
  rcases i with _|_|_|_|_|_|_|_|_|_|_|_|_|_|_|_|i <;> first | omega | simp

/-- What a mask on the primary selector and the low nibble leaves of a word. -/
theorem and_maskOpN (w : Word) : w &&& 0xF00F = formatXYN (opField w) 0 0 (nField w) := by
  refine BitVec.eq_of_getLsbD_eq fun i hi => ?_
  rw [getLsbD_formatXYN]
  simp only [BitVec.getLsbD_and, opField, nField, BitVec.getLsbD_extractLsb']
  rcases i with _|_|_|_|_|_|_|_|_|_|_|_|_|_|_|_|i <;> first | omega | simp

/-- What a mask on the primary selector and the low byte leaves of a word. -/
theorem and_maskOpKK (w : Word) : w &&& 0xF0FF = formatXK (opField w) 0 (kkField w) := by
  refine BitVec.eq_of_getLsbD_eq fun i hi => ?_
  rw [getLsbD_formatXK]
  simp only [BitVec.getLsbD_and, opField, kkField, BitVec.getLsbD_extractLsb']
  rcases i with _|_|_|_|_|_|_|_|_|_|_|_|_|_|_|_|i <;> first | omega | simp

/-! ## Fields as numbers -/

theorem opField_toNat (w : Word) : (opField w).toNat = w.toNat / 4096 := by
  have := w.isLt
  simp only [opField, BitVec.extractLsb'_toNat, Nat.shiftRight_eq_div_pow]
  omega

theorem nField_toNat (w : Word) : (nField w).toNat = w.toNat % 16 := by
  simp [nField, BitVec.extractLsb'_toNat]

theorem kkField_toNat (w : Word) : (kkField w).toNat = w.toNat % 256 := by
  simp [kkField, BitVec.extractLsb'_toNat]

/-! ## Words and bytes -/

theorem getLsbD_wordOfBytes (hi lo : Byte) (i : Nat) :
    (wordOfBytes hi lo).getLsbD i = if i < 8 then lo.getLsbD i else hi.getLsbD (i - 8) :=
  BitVec.getLsbD_append

/-- The byte at the lower address is bits 15..8 of the fetched word (R52). -/
@[simp] theorem highByte_wordOfBytes (hi lo : Byte) : (wordOfBytes hi lo).extractLsb' 8 8 = hi := by
  refine BitVec.eq_of_getLsbD_eq fun i hlt => ?_
  simp [getLsbD_wordOfBytes, hlt]

/-- The byte at the higher address is bits 7..0 of the fetched word (R52). -/
@[simp] theorem lowByte_wordOfBytes (hi lo : Byte) : (wordOfBytes hi lo).extractLsb' 0 8 = lo := by
  refine BitVec.eq_of_getLsbD_eq fun i hlt => ?_
  simp [getLsbD_wordOfBytes, hlt]

/-- The two bytes of a word make the word again (R52). -/
@[simp] theorem wordOfBytes_bytes (w : Word) :
    wordOfBytes (w.extractLsb' 8 8) (w.extractLsb' 0 8) = w := by
  refine BitVec.eq_of_getLsbD_eq fun i hi => ?_
  simp only [wordOfBytes, BitVec.getLsbD_append, BitVec.getLsbD_extractLsb']
  by_cases h : i < 8
  · simp [h]
  · simp [h, show i - 8 < 8 by omega, show 8 + (i - 8) = i by omega]

/-- The word laid out in memory order decodes to the word's instruction. -/
theorem decodeBytes_bytesOfWord (w : Word) (rest : List Byte) :
    decodeBytes (bytesOfWord w ++ rest) = .ok (decode w, rest) := by
  simp [bytesOfWord, decodeBytes]

theorem decodeTableWord_eq (nbits w : Nat) :
    decodeTableWord nbits w = some (decode (tableWord nbits w)) := by
  have := decodeBytes_bytesOfWord (tableWord nbits w) []
  rw [List.append_nil] at this
  rw [decodeTableWord, this]

end Sys2Proof
end

