-- ==== Sys2Proof/Laws/Memory.lean ====
section
/-! SUPPORT. The laws of memory: a read after a write, the canonical form, runs of bytes, and what the
address check answers. -/

namespace Sys2Proof

open Machine

@[simp] theorem Memory.read_nil (a : Nat) : Memory.read [] a = resetByte a := rfl

theorem Memory.read_cons (b : Nat) (u : Byte) (m : Memory) (a : Nat) :
    Memory.read ((b, u) :: m) a = if a = b then u else Memory.read m a := rfl

theorem Memory.read_insert (m : Memory) (a : Nat) (v : Byte) (k : Nat) :
    (Memory.insert m a v).read k = if k = a then v else m.read k := by
  induction m with
  | nil => simp [Memory.insert, Memory.read_cons]
  | cons c m ih =>
    obtain ⟨b, u⟩ := c
    simp only [Memory.insert]
    split
    · simp [Memory.read_cons]
    · split
      · subst b
        simp only [Memory.read_cons]
        split <;> rfl
      · simp only [Memory.read_cons, ih]
        split <;> split <;> simp_all

theorem Memory.read_filter (m : Memory) (a k : Nat) :
    Memory.read (m.filter fun c => c.1 != a) k = if k = a then resetByte k else m.read k := by
  induction m with
  | nil => simp
  | cons c m ih =>
    obtain ⟨b, u⟩ := c
    by_cases hb : b = a
    · subst b
      simp only [bne_self_eq_false, Bool.false_eq_true, not_false_eq_true, List.filter_cons_of_neg, ih,
        Memory.read_cons]
      split <;> rfl
    · simp only [bne_iff_ne, ne_eq, hb, not_false_eq_true, List.filter_cons_of_pos, Memory.read_cons, ih]
      split <;> split <;> simp_all

/-- A write is read back at its address and leaves every other byte alone (R55). -/
theorem Memory.read_write (m : Memory) (a : Nat) (v : Byte) (k : Nat) :
    (m.write a v).read k = if k = a then v else m.read k := by
  unfold Memory.write
  split
  · rename_i h
    rw [Memory.read_filter]
    split
    · subst k; exact h.symm
    · rfl
  · exact Memory.read_insert m a v k

@[simp] theorem Memory.read_write_same (m : Memory) (a : Nat) (v : Byte) : (m.write a v).read a = v := by
  simp [Memory.read_write]

theorem Memory.read_write_other (m : Memory) {a k : Nat} (v : Byte) (h : k ≠ a) :
    (m.write a v).read k = m.read k := by
  simp [Memory.read_write, h]

/-! ## The canonical form -/

theorem Memory.wf_cons (a : Nat) (v : Byte) (m : Memory) :
    Memory.wf ((a, v) :: m) = true ↔
      a < Config.memSize ∧ v ≠ resetByte a ∧ (∀ c ∈ m, a < c.1) ∧ m.wf = true := by
  simp [Memory.wf, and_assoc]

theorem Memory.wf_filter (m : Memory) (p : Host.Cell → Bool) (h : m.wf = true) :
    Memory.wf (m.filter p) = true := by
  induction m with
  | nil => rfl
  | cons c m ih =>
    obtain ⟨b, u⟩ := c
    rw [Memory.wf_cons] at h
    by_cases hp : p (b, u) = true
    · rw [List.filter_cons_of_pos hp, Memory.wf_cons]
      exact ⟨h.1, h.2.1, fun c hc => h.2.2.1 c ((List.mem_filter.mp hc).1), ih h.2.2.2⟩
    · rw [List.filter_cons_of_neg hp]
      exact ih h.2.2.2

theorem Memory.mem_insert {m : Memory} {a : Nat} {v : Byte} {c : Host.Cell}
    (h : c ∈ Memory.insert m a v) : c = (a, v) ∨ c ∈ m := by
  induction m with
  | nil => simpa [Memory.insert] using h
  | cons d m ih =>
    obtain ⟨b, u⟩ := d
    simp only [Memory.insert] at h
    split at h
    · simpa using h
    · split at h
      · rcases List.mem_cons.mp h with h | h <;> simp [h]
      · rcases List.mem_cons.mp h with h | h
        · simp [h]
        · rcases ih h with h | h <;> simp [h]

theorem Memory.wf_insert (m : Memory) (a : Nat) (v : Byte) (h : m.wf = true)
    (ha : a < Config.memSize) (hv : v ≠ resetByte a) : (Memory.insert m a v).wf = true := by
  induction m with
  | nil => simp [Memory.insert, Memory.wf, ha, hv]
  | cons c m ih =>
    obtain ⟨b, u⟩ := c
    have hc := (Memory.wf_cons b u m).mp h
    simp only [Memory.insert]
    split
    · rename_i hab
      refine (Memory.wf_cons a v _).mpr ⟨ha, hv, ?_, h⟩
      intro c hm
      rcases List.mem_cons.mp hm with rfl | hm
      · exact hab
      · exact Nat.lt_trans hab (hc.2.2.1 c hm)
    · split
      · subst b
        exact (Memory.wf_cons a v m).mpr ⟨ha, hv, hc.2.2.1, hc.2.2.2⟩
      · refine (Memory.wf_cons b u _).mpr ⟨hc.1, hc.2.1, ?_, ih hc.2.2.2⟩
        intro c hm
        rcases Memory.mem_insert hm with rfl | hm
        · simp only; omega
        · exact hc.2.2.1 c hm

/-- A write inside the address space keeps the canonical form. -/
theorem Memory.wf_write (m : Memory) (a : Nat) (v : Byte) (h : m.wf = true) (ha : a < Config.memSize) :
    (m.write a v).wf = true := by
  unfold Memory.write
  split
  · exact Memory.wf_filter m _ h
  · rename_i hv
    exact Memory.wf_insert m a v h ha hv

theorem Memory.read_of_all_gt {m : Memory} {a : Nat} (h : ∀ c ∈ m, a < c.1) :
    m.read a = resetByte a := by
  induction m with
  | nil => rfl
  | cons c m ih =>
    obtain ⟨b, u⟩ := c
    have hb : a < b := h (b, u) (by simp)
    rw [Memory.read_cons, if_neg (by omega)]
    exact ih fun c hc => h c (by simp [hc])

/-- Equal memories are equal data: two canonical lists that read alike are the same list. -/
theorem Memory.ext_of_wf {m n : Memory} (hm : m.wf = true) (hn : n.wf = true)
    (h : ∀ a, m.read a = n.read a) : m = n := by
  induction m generalizing n with
  | nil =>
    cases n with
    | nil => rfl
    | cons d n =>
      obtain ⟨b, u⟩ := d
      have := h b
      rw [Memory.read_cons, if_pos rfl, Memory.read_nil] at this
      exact absurd this.symm ((Memory.wf_cons b u n).mp hn).2.1
  | cons c m ih =>
    obtain ⟨a, v⟩ := c
    have hc := (Memory.wf_cons a v m).mp hm
    cases n with
    | nil =>
      have := h a
      rw [Memory.read_cons, if_pos rfl, Memory.read_nil] at this
      exact absurd this hc.2.1
    | cons d n =>
      obtain ⟨b, u⟩ := d
      have hd := (Memory.wf_cons b u n).mp hn
      have hab : a = b := by
        rcases Nat.lt_trichotomy a b with hlt | heq | hgt
        · have := h a
          rw [Memory.read_cons, if_pos rfl, Memory.read_of_all_gt (m := (b, u) :: n)] at this
          · exact absurd this hc.2.1
          · intro c hm
            rcases List.mem_cons.mp hm with rfl | hm
            · exact hlt
            · exact Nat.lt_trans hlt (hd.2.2.1 c hm)
        · exact heq
        · have := h b
          rw [Memory.read_cons b u, if_pos rfl, Memory.read_of_all_gt (m := (a, v) :: m)] at this
          · exact absurd this.symm hd.2.1
          · intro c hm
            rcases List.mem_cons.mp hm with rfl | hm
            · exact hgt
            · exact Nat.lt_trans hgt (hc.2.2.1 c hm)
      subst b
      have hv : v = u := by simpa [Memory.read_cons] using h a
      subst u
      have hmn : m = n := by
        refine ih hc.2.2.2 hd.2.2.2 fun k => ?_
        by_cases hk : k = a
        · subst k
          rw [Memory.read_of_all_gt hc.2.2.1, Memory.read_of_all_gt hd.2.2.1]
        · simpa [Memory.read_cons, hk] using h k
      rw [hmn]

namespace Machine

/-! ## Runs of bytes at the default OOR_POLICY -/

@[simp] theorem reach_oorPolicy (a : Nat) : reach oorPolicy a = a := rfl

@[simp] theorem outOfSpace_oorPolicy (a : Nat) :
    outOfSpace oorPolicy a = decide (Config.memSize ≤ a) := rfl

/-- The address check (R56): with no address nothing is checked; else it fails exactly when the last
address is above 0xFFF, at the first address above 0xFFF. -/
theorem firstBad_oorPolicy (a n : Nat) :
    firstBad oorPolicy a n =
      if n = 0 ∨ a + n ≤ Config.memSize then none else some (max a Config.memSize) := by
  induction n generalizing a with
  | zero => simp [firstBad]
  | succ n ih =>
    rw [firstBad, outOfSpace_oorPolicy, ih]
    by_cases h1 : Config.memSize ≤ a
    · rw [if_pos (by simpa using h1), if_neg (by omega), Nat.max_eq_left h1]
    · rw [if_neg (by simpa using h1)]
      by_cases h2 : a + (n + 1) ≤ Config.memSize
      · rw [if_pos (Or.inr (by omega)), if_pos (Or.inr h2)]
      · rw [if_neg (by omega), if_neg (by omega), Nat.max_eq_right (by omega), Nat.max_eq_right (by omega)]

@[simp] theorem length_loadBytes (p : Config.OorPolicy) (m : Memory) (a n : Nat) :
    (loadBytes p m a n).length = n := by
  induction n generalizing a with
  | zero => rfl
  | succ n ih => simp [loadBytes, ih]

/-- Byte `k` of a run is the byte at the `k`-th effective address. -/
theorem getElem?_loadBytes (m : Memory) (a n k : Nat) (h : k < n) :
    (loadBytes oorPolicy m a n)[k]? = some (m.read (a + k)) := by
  induction n generalizing a k with
  | zero => omega
  | succ n ih =>
    cases k with
    | zero => simp [loadBytes]
    | succ k =>
      simp only [loadBytes, List.getElem?_cons_succ]
      rw [ih (a + 1) k (by omega)]
      congr 2
      omega

/-- After a run is stored, its addresses read as its bytes and every other address as before. -/
theorem read_storeBytes (m : Memory) (a : Nat) (bs : List Byte) (k : Nat) :
    (storeBytes oorPolicy m a bs).read k =
      if a ≤ k then (bs[k - a]?).getD (m.read k) else m.read k := by
  induction bs generalizing m a with
  | nil => simp [storeBytes]
  | cons b bs ih =>
    rw [storeBytes, ih, Memory.read_write, reach_oorPolicy]
    by_cases h1 : a + 1 ≤ k
    · rw [if_pos h1, if_neg (by omega), if_pos (by omega)]
      obtain ⟨j, rfl⟩ : ∃ j, k = a + 1 + j := ⟨k - (a + 1), by omega⟩
      simp [show a + 1 + j - a = j + 1 by omega, show a + 1 + j - (a + 1) = j by omega]
    · rw [if_neg h1]
      by_cases h2 : k = a
      · subst k; simp
      · rw [if_neg h2, if_neg (by omega)]

theorem read_storeBytes_outside (m : Memory) (a : Nat) (bs : List Byte) (k : Nat)
    (h : k < a ∨ a + bs.length ≤ k) : (storeBytes oorPolicy m a bs).read k = m.read k := by
  rw [read_storeBytes]
  split
  · rw [List.getElem?_eq_none (by omega)]; rfl
  · rfl

theorem read_storeBytes_inside (m : Memory) (a : Nat) (bs : List Byte) (k : Nat) (h : k < bs.length) :
    (storeBytes oorPolicy m a bs).read (a + k) = bs[k] := by
  rw [read_storeBytes, if_pos (by omega), show a + k - a = k by omega]
  simp [h]

/-- A run stored inside the address space keeps the canonical form. -/
theorem wf_storeBytes (m : Memory) (a : Nat) (bs : List Byte) (hm : m.wf = true)
    (h : a + bs.length ≤ Config.memSize ∨ bs.length = 0) : (storeBytes oorPolicy m a bs).wf = true := by
  induction bs generalizing m a with
  | nil => exact hm
  | cons b bs ih =>
    simp only [List.length_cons] at h
    refine ih _ _ (Memory.wf_write m a b hm (by omega)) (Or.inl (by omega))

end Machine

end Sys2Proof
end

