-- ==== Sys2Proof/Laws/State.lean ====
section
/-! SUPPORT. For every named update of the state, what each field holds after it (all true by rfl). -/

namespace Sys2Proof.Machine

variable (s : State)

@[simp] theorem setReg_mem (x : Reg) (b : Byte) : (setReg s x b).mem = s.mem := rfl
@[simp] theorem setReg_V (x : Reg) (b : Byte) : (setReg s x b).V = s.V.set x.val b := rfl
@[simp] theorem setReg_I (x : Reg) (b : Byte) : (setReg s x b).I = s.I := rfl
@[simp] theorem setReg_pc (x : Reg) (b : Byte) : (setReg s x b).pc = s.pc := rfl
@[simp] theorem setReg_stack (x : Reg) (b : Byte) : (setReg s x b).stack = s.stack := rfl
@[simp] theorem setReg_sp (x : Reg) (b : Byte) : (setReg s x b).sp = s.sp := rfl
@[simp] theorem setReg_DT (x : Reg) (b : Byte) : (setReg s x b).DT = s.DT := rfl
@[simp] theorem setReg_ST (x : Reg) (b : Byte) : (setReg s x b).ST = s.ST := rfl
@[simp] theorem setReg_key (x : Reg) (b : Byte) : (setReg s x b).key = s.key := rfl
@[simp] theorem setReg_disp (x : Reg) (b : Byte) : (setReg s x b).disp = s.disp := rfl
@[simp] theorem setReg_drawFlag (x : Reg) (b : Byte) : (setReg s x b).drawFlag = s.drawFlag := rfl
@[simp] theorem setReg_draws (x : Reg) (b : Byte) : (setReg s x b).draws = s.draws := rfl
@[simp] theorem setReg_reportOut (x : Reg) (b : Byte) : (setReg s x b).reportOut = s.reportOut := rfl
@[simp] theorem setReg_soundCueOut (x : Reg) (b : Byte) : (setReg s x b).soundCueOut = s.soundCueOut := rfl
@[simp] theorem setReg_faultMark (x : Reg) (b : Byte) : (setReg s x b).faultMark = s.faultMark := rfl

@[simp] theorem setRegs_mem (v : Vector Byte 16) : (setRegs s v).mem = s.mem := rfl
@[simp] theorem setRegs_V (v : Vector Byte 16) : (setRegs s v).V = v := rfl
@[simp] theorem setRegs_I (v : Vector Byte 16) : (setRegs s v).I = s.I := rfl
@[simp] theorem setRegs_pc (v : Vector Byte 16) : (setRegs s v).pc = s.pc := rfl
@[simp] theorem setRegs_stack (v : Vector Byte 16) : (setRegs s v).stack = s.stack := rfl
@[simp] theorem setRegs_sp (v : Vector Byte 16) : (setRegs s v).sp = s.sp := rfl
@[simp] theorem setRegs_DT (v : Vector Byte 16) : (setRegs s v).DT = s.DT := rfl
@[simp] theorem setRegs_ST (v : Vector Byte 16) : (setRegs s v).ST = s.ST := rfl
@[simp] theorem setRegs_key (v : Vector Byte 16) : (setRegs s v).key = s.key := rfl
@[simp] theorem setRegs_disp (v : Vector Byte 16) : (setRegs s v).disp = s.disp := rfl
@[simp] theorem setRegs_drawFlag (v : Vector Byte 16) : (setRegs s v).drawFlag = s.drawFlag := rfl
@[simp] theorem setRegs_draws (v : Vector Byte 16) : (setRegs s v).draws = s.draws := rfl
@[simp] theorem setRegs_reportOut (v : Vector Byte 16) : (setRegs s v).reportOut = s.reportOut := rfl
@[simp] theorem setRegs_soundCueOut (v : Vector Byte 16) : (setRegs s v).soundCueOut = s.soundCueOut := rfl
@[simp] theorem setRegs_faultMark (v : Vector Byte 16) : (setRegs s v).faultMark = s.faultMark := rfl

@[simp] theorem setI_mem (w : Word) : (setI s w).mem = s.mem := rfl
@[simp] theorem setI_V (w : Word) : (setI s w).V = s.V := rfl
@[simp] theorem setI_I (w : Word) : (setI s w).I = w := rfl
@[simp] theorem setI_pc (w : Word) : (setI s w).pc = s.pc := rfl
@[simp] theorem setI_stack (w : Word) : (setI s w).stack = s.stack := rfl
@[simp] theorem setI_sp (w : Word) : (setI s w).sp = s.sp := rfl
@[simp] theorem setI_DT (w : Word) : (setI s w).DT = s.DT := rfl
@[simp] theorem setI_ST (w : Word) : (setI s w).ST = s.ST := rfl
@[simp] theorem setI_key (w : Word) : (setI s w).key = s.key := rfl
@[simp] theorem setI_disp (w : Word) : (setI s w).disp = s.disp := rfl
@[simp] theorem setI_drawFlag (w : Word) : (setI s w).drawFlag = s.drawFlag := rfl
@[simp] theorem setI_draws (w : Word) : (setI s w).draws = s.draws := rfl
@[simp] theorem setI_reportOut (w : Word) : (setI s w).reportOut = s.reportOut := rfl
@[simp] theorem setI_soundCueOut (w : Word) : (setI s w).soundCueOut = s.soundCueOut := rfl
@[simp] theorem setI_faultMark (w : Word) : (setI s w).faultMark = s.faultMark := rfl

@[simp] theorem setPc_mem (w : Word) : (setPc s w).mem = s.mem := rfl
@[simp] theorem setPc_V (w : Word) : (setPc s w).V = s.V := rfl
@[simp] theorem setPc_I (w : Word) : (setPc s w).I = s.I := rfl
@[simp] theorem setPc_pc (w : Word) : (setPc s w).pc = w := rfl
@[simp] theorem setPc_stack (w : Word) : (setPc s w).stack = s.stack := rfl
@[simp] theorem setPc_sp (w : Word) : (setPc s w).sp = s.sp := rfl
@[simp] theorem setPc_DT (w : Word) : (setPc s w).DT = s.DT := rfl
@[simp] theorem setPc_ST (w : Word) : (setPc s w).ST = s.ST := rfl
@[simp] theorem setPc_key (w : Word) : (setPc s w).key = s.key := rfl
@[simp] theorem setPc_disp (w : Word) : (setPc s w).disp = s.disp := rfl
@[simp] theorem setPc_drawFlag (w : Word) : (setPc s w).drawFlag = s.drawFlag := rfl
@[simp] theorem setPc_draws (w : Word) : (setPc s w).draws = s.draws := rfl
@[simp] theorem setPc_reportOut (w : Word) : (setPc s w).reportOut = s.reportOut := rfl
@[simp] theorem setPc_soundCueOut (w : Word) : (setPc s w).soundCueOut = s.soundCueOut := rfl
@[simp] theorem setPc_faultMark (w : Word) : (setPc s w).faultMark = s.faultMark := rfl

@[simp] theorem setMem_mem (m : Memory) : (setMem s m).mem = m := rfl
@[simp] theorem setMem_V (m : Memory) : (setMem s m).V = s.V := rfl
@[simp] theorem setMem_I (m : Memory) : (setMem s m).I = s.I := rfl
@[simp] theorem setMem_pc (m : Memory) : (setMem s m).pc = s.pc := rfl
@[simp] theorem setMem_stack (m : Memory) : (setMem s m).stack = s.stack := rfl
@[simp] theorem setMem_sp (m : Memory) : (setMem s m).sp = s.sp := rfl
@[simp] theorem setMem_DT (m : Memory) : (setMem s m).DT = s.DT := rfl
@[simp] theorem setMem_ST (m : Memory) : (setMem s m).ST = s.ST := rfl
@[simp] theorem setMem_key (m : Memory) : (setMem s m).key = s.key := rfl
@[simp] theorem setMem_disp (m : Memory) : (setMem s m).disp = s.disp := rfl
@[simp] theorem setMem_drawFlag (m : Memory) : (setMem s m).drawFlag = s.drawFlag := rfl
@[simp] theorem setMem_draws (m : Memory) : (setMem s m).draws = s.draws := rfl
@[simp] theorem setMem_reportOut (m : Memory) : (setMem s m).reportOut = s.reportOut := rfl
@[simp] theorem setMem_soundCueOut (m : Memory) : (setMem s m).soundCueOut = s.soundCueOut := rfl
@[simp] theorem setMem_faultMark (m : Memory) : (setMem s m).faultMark = s.faultMark := rfl

@[simp] theorem setDT_mem (b : Byte) : (setDT s b).mem = s.mem := rfl
@[simp] theorem setDT_V (b : Byte) : (setDT s b).V = s.V := rfl
@[simp] theorem setDT_I (b : Byte) : (setDT s b).I = s.I := rfl
@[simp] theorem setDT_pc (b : Byte) : (setDT s b).pc = s.pc := rfl
@[simp] theorem setDT_stack (b : Byte) : (setDT s b).stack = s.stack := rfl
@[simp] theorem setDT_sp (b : Byte) : (setDT s b).sp = s.sp := rfl
@[simp] theorem setDT_DT (b : Byte) : (setDT s b).DT = b := rfl
@[simp] theorem setDT_ST (b : Byte) : (setDT s b).ST = s.ST := rfl
@[simp] theorem setDT_key (b : Byte) : (setDT s b).key = s.key := rfl
@[simp] theorem setDT_disp (b : Byte) : (setDT s b).disp = s.disp := rfl
@[simp] theorem setDT_drawFlag (b : Byte) : (setDT s b).drawFlag = s.drawFlag := rfl
@[simp] theorem setDT_draws (b : Byte) : (setDT s b).draws = s.draws := rfl
@[simp] theorem setDT_reportOut (b : Byte) : (setDT s b).reportOut = s.reportOut := rfl
@[simp] theorem setDT_soundCueOut (b : Byte) : (setDT s b).soundCueOut = s.soundCueOut := rfl
@[simp] theorem setDT_faultMark (b : Byte) : (setDT s b).faultMark = s.faultMark := rfl

@[simp] theorem setST_mem (b : Byte) : (setST s b).mem = s.mem := rfl
@[simp] theorem setST_V (b : Byte) : (setST s b).V = s.V := rfl
@[simp] theorem setST_I (b : Byte) : (setST s b).I = s.I := rfl
@[simp] theorem setST_pc (b : Byte) : (setST s b).pc = s.pc := rfl
@[simp] theorem setST_stack (b : Byte) : (setST s b).stack = s.stack := rfl
@[simp] theorem setST_sp (b : Byte) : (setST s b).sp = s.sp := rfl
@[simp] theorem setST_DT (b : Byte) : (setST s b).DT = s.DT := rfl
@[simp] theorem setST_ST (b : Byte) : (setST s b).ST = b := rfl
@[simp] theorem setST_key (b : Byte) : (setST s b).key = s.key := rfl
@[simp] theorem setST_disp (b : Byte) : (setST s b).disp = s.disp := rfl
@[simp] theorem setST_drawFlag (b : Byte) : (setST s b).drawFlag = s.drawFlag := rfl
@[simp] theorem setST_draws (b : Byte) : (setST s b).draws = s.draws := rfl
@[simp] theorem setST_reportOut (b : Byte) : (setST s b).reportOut = s.reportOut := rfl
@[simp] theorem setST_soundCueOut (b : Byte) : (setST s b).soundCueOut = s.soundCueOut := rfl
@[simp] theorem setST_faultMark (b : Byte) : (setST s b).faultMark = s.faultMark := rfl

@[simp] theorem setKey_mem (k : Fin 16) (b : Bool) : (setKey s k b).mem = s.mem := rfl
@[simp] theorem setKey_V (k : Fin 16) (b : Bool) : (setKey s k b).V = s.V := rfl
@[simp] theorem setKey_I (k : Fin 16) (b : Bool) : (setKey s k b).I = s.I := rfl
@[simp] theorem setKey_pc (k : Fin 16) (b : Bool) : (setKey s k b).pc = s.pc := rfl
@[simp] theorem setKey_stack (k : Fin 16) (b : Bool) : (setKey s k b).stack = s.stack := rfl
@[simp] theorem setKey_sp (k : Fin 16) (b : Bool) : (setKey s k b).sp = s.sp := rfl
@[simp] theorem setKey_DT (k : Fin 16) (b : Bool) : (setKey s k b).DT = s.DT := rfl
@[simp] theorem setKey_ST (k : Fin 16) (b : Bool) : (setKey s k b).ST = s.ST := rfl
@[simp] theorem setKey_key (k : Fin 16) (b : Bool) : (setKey s k b).key = s.key.set k.val b := rfl
@[simp] theorem setKey_disp (k : Fin 16) (b : Bool) : (setKey s k b).disp = s.disp := rfl
@[simp] theorem setKey_drawFlag (k : Fin 16) (b : Bool) : (setKey s k b).drawFlag = s.drawFlag := rfl
@[simp] theorem setKey_draws (k : Fin 16) (b : Bool) : (setKey s k b).draws = s.draws := rfl
@[simp] theorem setKey_reportOut (k : Fin 16) (b : Bool) : (setKey s k b).reportOut = s.reportOut := rfl
@[simp] theorem setKey_soundCueOut (k : Fin 16) (b : Bool) : (setKey s k b).soundCueOut = s.soundCueOut := rfl
@[simp] theorem setKey_faultMark (k : Fin 16) (b : Bool) : (setKey s k b).faultMark = s.faultMark := rfl

@[simp] theorem setDisplay_mem (d : Display) : (setDisplay s d).mem = s.mem := rfl
@[simp] theorem setDisplay_V (d : Display) : (setDisplay s d).V = s.V := rfl
@[simp] theorem setDisplay_I (d : Display) : (setDisplay s d).I = s.I := rfl
@[simp] theorem setDisplay_pc (d : Display) : (setDisplay s d).pc = s.pc := rfl
@[simp] theorem setDisplay_stack (d : Display) : (setDisplay s d).stack = s.stack := rfl
@[simp] theorem setDisplay_sp (d : Display) : (setDisplay s d).sp = s.sp := rfl
@[simp] theorem setDisplay_DT (d : Display) : (setDisplay s d).DT = s.DT := rfl
@[simp] theorem setDisplay_ST (d : Display) : (setDisplay s d).ST = s.ST := rfl
@[simp] theorem setDisplay_key (d : Display) : (setDisplay s d).key = s.key := rfl
@[simp] theorem setDisplay_disp (d : Display) : (setDisplay s d).disp = d := rfl
@[simp] theorem setDisplay_drawFlag (d : Display) : (setDisplay s d).drawFlag = true := rfl
@[simp] theorem setDisplay_draws (d : Display) : (setDisplay s d).draws = s.draws := rfl
@[simp] theorem setDisplay_reportOut (d : Display) : (setDisplay s d).reportOut = s.reportOut := rfl
@[simp] theorem setDisplay_soundCueOut (d : Display) : (setDisplay s d).soundCueOut = s.soundCueOut := rfl
@[simp] theorem setDisplay_faultMark (d : Display) : (setDisplay s d).faultMark = s.faultMark := rfl

@[simp] theorem setDrawFlag_mem (b : Bool) : (setDrawFlag s b).mem = s.mem := rfl
@[simp] theorem setDrawFlag_V (b : Bool) : (setDrawFlag s b).V = s.V := rfl
@[simp] theorem setDrawFlag_I (b : Bool) : (setDrawFlag s b).I = s.I := rfl
@[simp] theorem setDrawFlag_pc (b : Bool) : (setDrawFlag s b).pc = s.pc := rfl
@[simp] theorem setDrawFlag_stack (b : Bool) : (setDrawFlag s b).stack = s.stack := rfl
@[simp] theorem setDrawFlag_sp (b : Bool) : (setDrawFlag s b).sp = s.sp := rfl
@[simp] theorem setDrawFlag_DT (b : Bool) : (setDrawFlag s b).DT = s.DT := rfl
@[simp] theorem setDrawFlag_ST (b : Bool) : (setDrawFlag s b).ST = s.ST := rfl
@[simp] theorem setDrawFlag_key (b : Bool) : (setDrawFlag s b).key = s.key := rfl
@[simp] theorem setDrawFlag_disp (b : Bool) : (setDrawFlag s b).disp = s.disp := rfl
@[simp] theorem setDrawFlag_drawFlag (b : Bool) : (setDrawFlag s b).drawFlag = b := rfl
@[simp] theorem setDrawFlag_draws (b : Bool) : (setDrawFlag s b).draws = s.draws := rfl
@[simp] theorem setDrawFlag_reportOut (b : Bool) : (setDrawFlag s b).reportOut = s.reportOut := rfl
@[simp] theorem setDrawFlag_soundCueOut (b : Bool) : (setDrawFlag s b).soundCueOut = s.soundCueOut := rfl
@[simp] theorem setDrawFlag_faultMark (b : Bool) : (setDrawFlag s b).faultMark = s.faultMark := rfl

@[simp] theorem setReport_mem (c : Report) : (setReport s c).mem = s.mem := rfl
@[simp] theorem setReport_V (c : Report) : (setReport s c).V = s.V := rfl
@[simp] theorem setReport_I (c : Report) : (setReport s c).I = s.I := rfl
@[simp] theorem setReport_pc (c : Report) : (setReport s c).pc = s.pc := rfl
@[simp] theorem setReport_stack (c : Report) : (setReport s c).stack = s.stack := rfl
@[simp] theorem setReport_sp (c : Report) : (setReport s c).sp = s.sp := rfl
@[simp] theorem setReport_DT (c : Report) : (setReport s c).DT = s.DT := rfl
@[simp] theorem setReport_ST (c : Report) : (setReport s c).ST = s.ST := rfl
@[simp] theorem setReport_key (c : Report) : (setReport s c).key = s.key := rfl
@[simp] theorem setReport_disp (c : Report) : (setReport s c).disp = s.disp := rfl
@[simp] theorem setReport_drawFlag (c : Report) : (setReport s c).drawFlag = s.drawFlag := rfl
@[simp] theorem setReport_draws (c : Report) : (setReport s c).draws = s.draws := rfl
@[simp] theorem setReport_reportOut (c : Report) : (setReport s c).reportOut = c := rfl
@[simp] theorem setReport_soundCueOut (c : Report) : (setReport s c).soundCueOut = s.soundCueOut := rfl
@[simp] theorem setReport_faultMark (c : Report) : (setReport s c).faultMark = s.faultMark := rfl

@[simp] theorem setCue_mem (b : Bool) : (setCue s b).mem = s.mem := rfl
@[simp] theorem setCue_V (b : Bool) : (setCue s b).V = s.V := rfl
@[simp] theorem setCue_I (b : Bool) : (setCue s b).I = s.I := rfl
@[simp] theorem setCue_pc (b : Bool) : (setCue s b).pc = s.pc := rfl
@[simp] theorem setCue_stack (b : Bool) : (setCue s b).stack = s.stack := rfl
@[simp] theorem setCue_sp (b : Bool) : (setCue s b).sp = s.sp := rfl
@[simp] theorem setCue_DT (b : Bool) : (setCue s b).DT = s.DT := rfl
@[simp] theorem setCue_ST (b : Bool) : (setCue s b).ST = s.ST := rfl
@[simp] theorem setCue_key (b : Bool) : (setCue s b).key = s.key := rfl
@[simp] theorem setCue_disp (b : Bool) : (setCue s b).disp = s.disp := rfl
@[simp] theorem setCue_drawFlag (b : Bool) : (setCue s b).drawFlag = s.drawFlag := rfl
@[simp] theorem setCue_draws (b : Bool) : (setCue s b).draws = s.draws := rfl
@[simp] theorem setCue_reportOut (b : Bool) : (setCue s b).reportOut = s.reportOut := rfl
@[simp] theorem setCue_soundCueOut (b : Bool) : (setCue s b).soundCueOut = b := rfl
@[simp] theorem setCue_faultMark (b : Bool) : (setCue s b).faultMark = s.faultMark := rfl

@[simp] theorem advanceDraws_mem : (advanceDraws s).mem = s.mem := rfl
@[simp] theorem advanceDraws_V : (advanceDraws s).V = s.V := rfl
@[simp] theorem advanceDraws_I : (advanceDraws s).I = s.I := rfl
@[simp] theorem advanceDraws_pc : (advanceDraws s).pc = s.pc := rfl
@[simp] theorem advanceDraws_stack : (advanceDraws s).stack = s.stack := rfl
@[simp] theorem advanceDraws_sp : (advanceDraws s).sp = s.sp := rfl
@[simp] theorem advanceDraws_DT : (advanceDraws s).DT = s.DT := rfl
@[simp] theorem advanceDraws_ST : (advanceDraws s).ST = s.ST := rfl
@[simp] theorem advanceDraws_key : (advanceDraws s).key = s.key := rfl
@[simp] theorem advanceDraws_disp : (advanceDraws s).disp = s.disp := rfl
@[simp] theorem advanceDraws_drawFlag : (advanceDraws s).drawFlag = s.drawFlag := rfl
@[simp] theorem advanceDraws_draws : (advanceDraws s).draws = s.draws + 1 := rfl
@[simp] theorem advanceDraws_reportOut : (advanceDraws s).reportOut = s.reportOut := rfl
@[simp] theorem advanceDraws_soundCueOut : (advanceDraws s).soundCueOut = s.soundCueOut := rfl
@[simp] theorem advanceDraws_faultMark : (advanceDraws s).faultMark = s.faultMark := rfl

@[simp] theorem setFaultMark_mem (m : Option Nat) : (setFaultMark s m).mem = s.mem := rfl
@[simp] theorem setFaultMark_V (m : Option Nat) : (setFaultMark s m).V = s.V := rfl
@[simp] theorem setFaultMark_I (m : Option Nat) : (setFaultMark s m).I = s.I := rfl
@[simp] theorem setFaultMark_pc (m : Option Nat) : (setFaultMark s m).pc = s.pc := rfl
@[simp] theorem setFaultMark_stack (m : Option Nat) : (setFaultMark s m).stack = s.stack := rfl
@[simp] theorem setFaultMark_sp (m : Option Nat) : (setFaultMark s m).sp = s.sp := rfl
@[simp] theorem setFaultMark_DT (m : Option Nat) : (setFaultMark s m).DT = s.DT := rfl
@[simp] theorem setFaultMark_ST (m : Option Nat) : (setFaultMark s m).ST = s.ST := rfl
@[simp] theorem setFaultMark_key (m : Option Nat) : (setFaultMark s m).key = s.key := rfl
@[simp] theorem setFaultMark_disp (m : Option Nat) : (setFaultMark s m).disp = s.disp := rfl
@[simp] theorem setFaultMark_drawFlag (m : Option Nat) : (setFaultMark s m).drawFlag = s.drawFlag := rfl
@[simp] theorem setFaultMark_draws (m : Option Nat) : (setFaultMark s m).draws = s.draws := rfl
@[simp] theorem setFaultMark_reportOut (m : Option Nat) : (setFaultMark s m).reportOut = s.reportOut := rfl
@[simp] theorem setFaultMark_soundCueOut (m : Option Nat) : (setFaultMark s m).soundCueOut = s.soundCueOut := rfl
@[simp] theorem setFaultMark_faultMark (m : Option Nat) : (setFaultMark s m).faultMark = m := rfl

@[simp] theorem setPushed_mem (w : Word) (h : s.sp.val < 16) : (setPushed s w h).mem = s.mem := rfl
@[simp] theorem setPushed_V (w : Word) (h : s.sp.val < 16) : (setPushed s w h).V = s.V := rfl
@[simp] theorem setPushed_I (w : Word) (h : s.sp.val < 16) : (setPushed s w h).I = s.I := rfl
@[simp] theorem setPushed_pc (w : Word) (h : s.sp.val < 16) : (setPushed s w h).pc = s.pc := rfl
@[simp] theorem setPushed_stack (w : Word) (h : s.sp.val < 16) : (setPushed s w h).stack = s.stack.set s.sp.val w := rfl
@[simp] theorem setPushed_sp (w : Word) (h : s.sp.val < 16) : (setPushed s w h).sp = ⟨s.sp.val + 1, by omega⟩ := rfl
@[simp] theorem setPushed_DT (w : Word) (h : s.sp.val < 16) : (setPushed s w h).DT = s.DT := rfl
@[simp] theorem setPushed_ST (w : Word) (h : s.sp.val < 16) : (setPushed s w h).ST = s.ST := rfl
@[simp] theorem setPushed_key (w : Word) (h : s.sp.val < 16) : (setPushed s w h).key = s.key := rfl
@[simp] theorem setPushed_disp (w : Word) (h : s.sp.val < 16) : (setPushed s w h).disp = s.disp := rfl
@[simp] theorem setPushed_drawFlag (w : Word) (h : s.sp.val < 16) : (setPushed s w h).drawFlag = s.drawFlag := rfl
@[simp] theorem setPushed_draws (w : Word) (h : s.sp.val < 16) : (setPushed s w h).draws = s.draws := rfl
@[simp] theorem setPushed_reportOut (w : Word) (h : s.sp.val < 16) : (setPushed s w h).reportOut = s.reportOut := rfl
@[simp] theorem setPushed_soundCueOut (w : Word) (h : s.sp.val < 16) : (setPushed s w h).soundCueOut = s.soundCueOut := rfl
@[simp] theorem setPushed_faultMark (w : Word) (h : s.sp.val < 16) : (setPushed s w h).faultMark = s.faultMark := rfl

@[simp] theorem setPopped_mem : (setPopped s).mem = s.mem := rfl
@[simp] theorem setPopped_V : (setPopped s).V = s.V := rfl
@[simp] theorem setPopped_I : (setPopped s).I = s.I := rfl
@[simp] theorem setPopped_pc : (setPopped s).pc = s.pc := rfl
@[simp] theorem setPopped_stack : (setPopped s).stack = s.stack := rfl
@[simp] theorem setPopped_sp : (setPopped s).sp = ⟨s.sp.val - 1, by omega⟩ := rfl
@[simp] theorem setPopped_DT : (setPopped s).DT = s.DT := rfl
@[simp] theorem setPopped_ST : (setPopped s).ST = s.ST := rfl
@[simp] theorem setPopped_key : (setPopped s).key = s.key := rfl
@[simp] theorem setPopped_disp : (setPopped s).disp = s.disp := rfl
@[simp] theorem setPopped_drawFlag : (setPopped s).drawFlag = s.drawFlag := rfl
@[simp] theorem setPopped_draws : (setPopped s).draws = s.draws := rfl
@[simp] theorem setPopped_reportOut : (setPopped s).reportOut = s.reportOut := rfl
@[simp] theorem setPopped_soundCueOut : (setPopped s).soundCueOut = s.soundCueOut := rfl
@[simp] theorem setPopped_faultMark : (setPopped s).faultMark = s.faultMark := rfl

@[simp] theorem beginCycle_mem : (beginCycle s).mem = s.mem := rfl
@[simp] theorem beginCycle_V : (beginCycle s).V = s.V := rfl
@[simp] theorem beginCycle_I : (beginCycle s).I = s.I := rfl
@[simp] theorem beginCycle_pc : (beginCycle s).pc = s.pc + 2 := rfl
@[simp] theorem beginCycle_stack : (beginCycle s).stack = s.stack := rfl
@[simp] theorem beginCycle_sp : (beginCycle s).sp = s.sp := rfl
@[simp] theorem beginCycle_DT : (beginCycle s).DT = s.DT := rfl
@[simp] theorem beginCycle_ST : (beginCycle s).ST = s.ST := rfl
@[simp] theorem beginCycle_key : (beginCycle s).key = s.key := rfl
@[simp] theorem beginCycle_disp : (beginCycle s).disp = s.disp := rfl
@[simp] theorem beginCycle_drawFlag : (beginCycle s).drawFlag = s.drawFlag := rfl
@[simp] theorem beginCycle_draws : (beginCycle s).draws = s.draws := rfl
@[simp] theorem beginCycle_reportOut : (beginCycle s).reportOut = .none := rfl
@[simp] theorem beginCycle_soundCueOut : (beginCycle s).soundCueOut = s.soundCueOut := rfl
@[simp] theorem beginCycle_faultMark : (beginCycle s).faultMark = s.faultMark := rfl

@[simp] theorem skip_mem : (skip s).mem = s.mem := rfl
@[simp] theorem skip_V : (skip s).V = s.V := rfl
@[simp] theorem skip_I : (skip s).I = s.I := rfl
@[simp] theorem skip_pc : (skip s).pc = s.pc + 2 := rfl
@[simp] theorem skip_stack : (skip s).stack = s.stack := rfl
@[simp] theorem skip_sp : (skip s).sp = s.sp := rfl
@[simp] theorem skip_DT : (skip s).DT = s.DT := rfl
@[simp] theorem skip_ST : (skip s).ST = s.ST := rfl
@[simp] theorem skip_key : (skip s).key = s.key := rfl
@[simp] theorem skip_disp : (skip s).disp = s.disp := rfl
@[simp] theorem skip_drawFlag : (skip s).drawFlag = s.drawFlag := rfl
@[simp] theorem skip_draws : (skip s).draws = s.draws := rfl
@[simp] theorem skip_reportOut : (skip s).reportOut = s.reportOut := rfl
@[simp] theorem skip_soundCueOut : (skip s).soundCueOut = s.soundCueOut := rfl
@[simp] theorem skip_faultMark : (skip s).faultMark = s.faultMark := rfl

@[simp] theorem rewind_mem : (rewind s).mem = s.mem := rfl
@[simp] theorem rewind_V : (rewind s).V = s.V := rfl
@[simp] theorem rewind_I : (rewind s).I = s.I := rfl
@[simp] theorem rewind_pc : (rewind s).pc = s.pc - 2 := rfl
@[simp] theorem rewind_stack : (rewind s).stack = s.stack := rfl
@[simp] theorem rewind_sp : (rewind s).sp = s.sp := rfl
@[simp] theorem rewind_DT : (rewind s).DT = s.DT := rfl
@[simp] theorem rewind_ST : (rewind s).ST = s.ST := rfl
@[simp] theorem rewind_key : (rewind s).key = s.key := rfl
@[simp] theorem rewind_disp : (rewind s).disp = s.disp := rfl
@[simp] theorem rewind_drawFlag : (rewind s).drawFlag = s.drawFlag := rfl
@[simp] theorem rewind_draws : (rewind s).draws = s.draws := rfl
@[simp] theorem rewind_reportOut : (rewind s).reportOut = s.reportOut := rfl
@[simp] theorem rewind_soundCueOut : (rewind s).soundCueOut = s.soundCueOut := rfl
@[simp] theorem rewind_faultMark : (rewind s).faultMark = s.faultMark := rfl

end Sys2Proof.Machine
end

