-- ==== Sys2Proof/Laws/Ops.lean ====
section
/-! SUPPORT. One law for each shared operation: what it does in every case, so that proofs about the
meanings cite it instead of unfolding it. -/

namespace Sys2Proof.Machine

/-- Memory right after reset is in canonical form. -/
theorem reset_mem_wf : State.reset.mem.wf = true := rfl

/-! ## Reading a register after an update -/

theorem reg_setReg (s : State) (x : Reg) (b : Byte) (z : Reg) :
    reg (setReg s x b) z = if z = x then b else reg s z := by
  simp only [reg, setReg_V, Vector.getElem_set, Fin.ext_iff, eq_comm]

@[simp] theorem reg_setReg_same (s : State) (x : Reg) (b : Byte) : reg (setReg s x b) x = b := by
  simp [reg_setReg]

theorem reg_setReg_other (s : State) {x z : Reg} (b : Byte) (h : z ≠ x) :
    reg (setReg s x b) z = reg s z := by
  simp [reg_setReg, h]

@[simp] theorem reg_setRegs (s : State) (v : Vector Byte 16) (z : Reg) :
    reg (setRegs s v) z = v[z.val] := rfl
@[simp] theorem reg_setI (s : State) (w : Word) (z : Reg) : reg (setI s w) z = reg s z := rfl
@[simp] theorem reg_setPc (s : State) (w : Word) (z : Reg) : reg (setPc s w) z = reg s z := rfl
@[simp] theorem reg_setMem (s : State) (m : Memory) (z : Reg) : reg (setMem s m) z = reg s z := rfl
@[simp] theorem reg_setDT (s : State) (b : Byte) (z : Reg) : reg (setDT s b) z = reg s z := rfl
@[simp] theorem reg_setST (s : State) (b : Byte) (z : Reg) : reg (setST s b) z = reg s z := rfl
@[simp] theorem reg_setDisplay (s : State) (d : Display) (z : Reg) :
    reg (setDisplay s d) z = reg s z := rfl
@[simp] theorem reg_setReport (s : State) (c : Report) (z : Reg) :
    reg (setReport s c) z = reg s z := rfl
@[simp] theorem reg_advanceDraws (s : State) (z : Reg) : reg (advanceDraws s) z = reg s z := rfl
@[simp] theorem reg_setPushed (s : State) (w : Word) (h : s.sp.val < 16) (z : Reg) :
    reg (setPushed s w h) z = reg s z := rfl
@[simp] theorem reg_setPopped (s : State) (z : Reg) : reg (setPopped s) z = reg s z := rfl
@[simp] theorem reg_beginCycle (s : State) (z : Reg) : reg (beginCycle s) z = reg s z := rfl
@[simp] theorem reg_skip (s : State) (z : Reg) : reg (skip s) z = reg s z := rfl
@[simp] theorem reg_rewind (s : State) (z : Reg) : reg (rewind s) z = reg s z := rfl

/-- Two register files are the same when every register reads the same. -/
theorem V_ext {s t : State} (h : ∀ z : Reg, reg s z = reg t z) : s.V = t.V := by
  refine Vector.ext fun k hk => ?_
  exact h ⟨k, hk⟩

/-! ## The flag write and the result write -/

/-- Flag first, result second: `V[x]` ends as the result, VF as the flag unless `x = F`, every other
register is unchanged (R25). -/
theorem reg_setFlagAndResult (s : State) (x : Reg) (flag result : Byte) (z : Reg) :
    reg (setFlagAndResult vfOrder s x flag result) z =
      if z = x then result else if z = regVF then flag else reg s z := by
  simp only [setFlagAndResult, vfOrder, reg_setReg]

/-! The flag and result writes touch the registers only. -/

@[simp] theorem setFlagAndResult_mem (s : State) (x : Reg) (flag result : Byte) :
    (setFlagAndResult vfOrder s x flag result).mem = s.mem := rfl
@[simp] theorem setFlagAndResult_I (s : State) (x : Reg) (flag result : Byte) :
    (setFlagAndResult vfOrder s x flag result).I = s.I := rfl
@[simp] theorem setFlagAndResult_pc (s : State) (x : Reg) (flag result : Byte) :
    (setFlagAndResult vfOrder s x flag result).pc = s.pc := rfl
@[simp] theorem setFlagAndResult_stack (s : State) (x : Reg) (flag result : Byte) :
    (setFlagAndResult vfOrder s x flag result).stack = s.stack := rfl
@[simp] theorem setFlagAndResult_sp (s : State) (x : Reg) (flag result : Byte) :
    (setFlagAndResult vfOrder s x flag result).sp = s.sp := rfl
@[simp] theorem setFlagAndResult_DT (s : State) (x : Reg) (flag result : Byte) :
    (setFlagAndResult vfOrder s x flag result).DT = s.DT := rfl
@[simp] theorem setFlagAndResult_ST (s : State) (x : Reg) (flag result : Byte) :
    (setFlagAndResult vfOrder s x flag result).ST = s.ST := rfl
@[simp] theorem setFlagAndResult_key (s : State) (x : Reg) (flag result : Byte) :
    (setFlagAndResult vfOrder s x flag result).key = s.key := rfl
@[simp] theorem setFlagAndResult_disp (s : State) (x : Reg) (flag result : Byte) :
    (setFlagAndResult vfOrder s x flag result).disp = s.disp := rfl
@[simp] theorem setFlagAndResult_drawFlag (s : State) (x : Reg) (flag result : Byte) :
    (setFlagAndResult vfOrder s x flag result).drawFlag = s.drawFlag := rfl
@[simp] theorem setFlagAndResult_draws (s : State) (x : Reg) (flag result : Byte) :
    (setFlagAndResult vfOrder s x flag result).draws = s.draws := rfl
@[simp] theorem setFlagAndResult_reportOut (s : State) (x : Reg) (flag result : Byte) :
    (setFlagAndResult vfOrder s x flag result).reportOut = s.reportOut := rfl
@[simp] theorem setFlagAndResult_soundCueOut (s : State) (x : Reg) (flag result : Byte) :
    (setFlagAndResult vfOrder s x flag result).soundCueOut = s.soundCueOut := rfl
@[simp] theorem setFlagAndResult_faultMark (s : State) (x : Reg) (flag result : Byte) :
    (setFlagAndResult vfOrder s x flag result).faultMark = s.faultMark := rfl

theorem flagByte_eq_one (c : Bool) : flagByte c = 1 ↔ c = true := by
  cases c <;> decide

/-! ## Turning away, and the address check -/

/-- Either all addresses exist and the instruction goes on, or the first one above 0xFFF faults (R56). -/
theorem accessing_eq (a n : Nat) (go : Result) :
    accessing a n go =
      if n = 0 ∨ a + n ≤ Config.memSize then go else raiseAddressFault (max a Config.memSize) := by
  rw [accessing, firstBad_oorPolicy]
  by_cases h : n = 0 ∨ a + n ≤ Config.memSize
  · simp only [if_pos h]
  · simp only [if_neg h]

theorem accessing_next {a n : Nat} {go : Result} {t : State} (h : accessing a n go = .next t) :
    (n = 0 ∨ a + n ≤ Config.memSize) ∧ go = .next t := by
  rw [accessing_eq] at h
  split at h
  · exact ⟨‹_›, h⟩
  · cases h

/-! ## Program counter and stack -/

theorem skipIf_eq (c : Bool) (s : State) :
    skipIf c s = { s with pc := if c then s.pc + 2 else s.pc } := by
  cases c <;> rfl

/-! A skip touches `pc` only. -/

@[simp] theorem skipIf_mem (c : Bool) (s : State) : (skipIf c s).mem = s.mem := by
  cases c <;> rfl
@[simp] theorem skipIf_V (c : Bool) (s : State) : (skipIf c s).V = s.V := by
  cases c <;> rfl
@[simp] theorem skipIf_I (c : Bool) (s : State) : (skipIf c s).I = s.I := by
  cases c <;> rfl
@[simp] theorem skipIf_stack (c : Bool) (s : State) : (skipIf c s).stack = s.stack := by
  cases c <;> rfl
@[simp] theorem skipIf_sp (c : Bool) (s : State) : (skipIf c s).sp = s.sp := by
  cases c <;> rfl
@[simp] theorem skipIf_DT (c : Bool) (s : State) : (skipIf c s).DT = s.DT := by
  cases c <;> rfl
@[simp] theorem skipIf_ST (c : Bool) (s : State) : (skipIf c s).ST = s.ST := by
  cases c <;> rfl
@[simp] theorem skipIf_key (c : Bool) (s : State) : (skipIf c s).key = s.key := by
  cases c <;> rfl
@[simp] theorem skipIf_disp (c : Bool) (s : State) : (skipIf c s).disp = s.disp := by
  cases c <;> rfl
@[simp] theorem skipIf_drawFlag (c : Bool) (s : State) : (skipIf c s).drawFlag = s.drawFlag := by
  cases c <;> rfl
@[simp] theorem skipIf_draws (c : Bool) (s : State) : (skipIf c s).draws = s.draws := by
  cases c <;> rfl
@[simp] theorem skipIf_reportOut (c : Bool) (s : State) : (skipIf c s).reportOut = s.reportOut := by
  cases c <;> rfl
@[simp] theorem skipIf_soundCueOut (c : Bool) (s : State) : (skipIf c s).soundCueOut = s.soundCueOut := by
  cases c <;> rfl
@[simp] theorem skipIf_faultMark (c : Bool) (s : State) : (skipIf c s).faultMark = s.faultMark := by
  cases c <;> rfl
@[simp] theorem skipIf_pc (c : Bool) (s : State) :
    (skipIf c s).pc = if c = true then s.pc + 2 else s.pc := by
  cases c <;> rfl

@[simp] theorem reg_skipIf (c : Bool) (s : State) (z : Reg) : reg (skipIf c s) z = reg s z := by
  cases c <;> rfl

theorem pushReturn_eq (w : Word) (s : State) :
    pushReturn stackLimit w s =
      if h : s.sp.val < 16 then some (setPushed s w h) else none := rfl

theorem popReturn_eq (s : State) :
    popReturn s =
      if h : 0 < s.sp.val then some (s.stack[s.sp.val - 1]'(by omega), setPopped s) else none := rfl

/-- A key lookup either names a key and may skip, or reports (R114, R115, R203). -/
theorem skipOnKey_eq (down : Bool) (b : Byte) (s : State) :
    skipOnKey down b s =
      if h : b.toNat < 16 then .next (skipIf (keyDown s ⟨b.toNat, h⟩ == down) s)
      else .next (setReport s .invalidKeyIndex) := rfl

/-! ## Register ranges -/

theorem getElem_loadRegs (v : Vector Byte 16) (k : Nat) (bs : List Byte) (j : Nat) (hj : j < 16) :
    (loadRegs v k bs)[j] = if k ≤ j then (bs[j - k]?).getD v[j] else v[j] := by
  induction bs generalizing v k with
  | nil => simp [loadRegs]
  | cons b bs ih =>
    rw [loadRegs, ih]
    by_cases h1 : k + 1 ≤ j
    · rw [if_pos h1, if_pos (by omega)]
      obtain ⟨i, rfl⟩ : ∃ i, j = k + 1 + i := ⟨j - (k + 1), by omega⟩
      rw [show k + 1 + i - k = i + 1 by omega, show k + 1 + i - (k + 1) = i by omega,
        List.getElem?_cons_succ, Vector.getElem_setIfInBounds_ne hj (by omega)]
    · rw [if_neg h1]
      by_cases h2 : j = k
      · subst j; simp
      · rw [if_neg (by omega), Vector.getElem_setIfInBounds_ne hj (by omega)]

/-- `V[z]` after the bytes from `a` on were loaded into `V[0]` to `V[x]` (R145). -/
theorem getElem_loadRegs_bytes (v : Vector Byte 16) (m : Memory) (a : Nat) (x z : Reg) :
    (loadRegs v 0 (loadBytes oorPolicy m a (x.val + 1)))[z.val] =
      if z.val ≤ x.val then m.read (a + z.val) else v[z.val] := by
  rw [getElem_loadRegs, if_pos (Nat.zero_le _), Nat.sub_zero]
  by_cases h : z.val ≤ x.val
  · rw [if_pos h, getElem?_loadBytes _ _ _ _ (by omega)]; rfl
  · rw [if_neg h, List.getElem?_eq_none (by simp; omega)]; rfl

@[simp] theorem length_regRange (s : State) (x : Reg) : (regRange s x).length = x.val + 1 := by
  rw [regRange, List.length_take, Vector.length_toList]; omega

theorem getElem_regRange (s : State) (x z : Reg) (h : z.val ≤ x.val) :
    (regRange s x)[z.val]'(by rw [length_regRange]; omega) = reg s z := by
  simp [regRange, reg]

@[simp] theorem length_decimalDigits (b : Byte) : (decimalDigits b).length = 3 := rfl

/-! ## Keys -/

theorem key_toList_getD (s : State) (k : Fin 16) : s.key.toList.getD k.val false = keyDown s k := by
  simp [keyDown, List.getD_eq_getElem?_getD]

/-- The key wait takes the lowest key that is down (R151). -/
theorem lowestKeyDown_eq_some (s : State) (k : Nat) :
    lowestKeyDown s = some k ↔
      ∃ h : k < 16, keyDown s ⟨k, h⟩ = true ∧ ∀ j : Fin 16, j.val < k → keyDown s j = false := by
  rw [lowestKeyDown, List.find?_range_eq_some]
  constructor
  · rintro ⟨hd, hk, hall⟩
    have hk : k < 16 := by simpa using hk
    refine ⟨hk, by rw [← key_toList_getD]; exact hd, fun j hj => ?_⟩
    have := hall j.val hj
    rw [key_toList_getD] at this
    simpa using this
  · rintro ⟨hk, hd, hall⟩
    refine ⟨by rw [← key_toList_getD] at hd; exact hd, by simpa using hk, fun j hj => ?_⟩
    have := hall ⟨j, by omega⟩ hj
    rw [← key_toList_getD] at this
    simpa using this

theorem lowestKeyDown_eq_none (s : State) :
    lowestKeyDown s = none ↔ ∀ j : Fin 16, keyDown s j = false := by
  rw [lowestKeyDown, List.find?_range_eq_none]
  constructor
  · intro h j
    have := h j.val j.isLt
    rw [key_toList_getD] at this
    simpa using this
  · intro h j hj
    have := h ⟨j, hj⟩
    rw [← key_toList_getD] at this
    simpa using this

/-! ## Fetch -/

/-- Fetch reads two bytes, big-endian, or faults when `pc` is above 0xFFE (R52, R56). -/
theorem fetchWord_eq (s : State) :
    fetchWord s =
      if s.pc.toNat ≤ 0xFFE then
        .ok (wordOfBytes (s.mem.read s.pc.toNat) (s.mem.read (s.pc.toNat + 1)))
      else .error (max s.pc.toNat 0x1000) := by
  rw [fetchWord, firstBad_oorPolicy, Config.memSize]
  by_cases h : s.pc.toNat ≤ 0xFFE
  · rw [if_pos h, if_pos (Or.inr (by omega))]; rfl
  · rw [if_neg h, if_neg (by omega)]

theorem fetchWord_of_le {s : State} (h : s.pc.toNat ≤ 0xFFE) :
    fetchWord s = .ok (wordOfBytes (s.mem.read s.pc.toNat) (s.mem.read (s.pc.toNat + 1))) := by
  rw [fetchWord_eq, if_pos h]

theorem fetchWord_of_gt {s : State} (h : 0xFFE < s.pc.toNat) :
    fetchWord s = .error (max s.pc.toNat 0x1000) := by
  rw [fetchWord_eq, if_neg (by omega)]

end Sys2Proof.Machine
end

