-- ==== Sys2Proof/Laws/Display.lean ====
section
/-! SUPPORT. The laws of the display: pixels after a plot, and the closed form of the sprite scan of DRW
(spec/46_display.md R166: each pixel is addressed at most once, so the order of the scan cannot be seen). -/

namespace Sys2Proof.Machine

theorem pixel_of_row_ge (d : Display) {r : Nat} (c : Nat) (h : 32 ≤ r) : pixel d r c = false := by
  rw [pixel, dif_neg (by omega)]

theorem pixel_of_column_ge (d : Display) (r : Nat) {c : Nat} (h : 64 ≤ c) : pixel d r c = false := by
  rw [pixel]
  split
  · exact BitVec.getLsbD_of_ge _ _ h
  · rfl

/-- Two displays are the same when every pixel of the grid is. -/
theorem display_ext {d e : Display} (h : ∀ r < 32, ∀ c < 64, pixel d r c = pixel e r c) : d = e := by
  refine Vector.ext fun r hr => BitVec.eq_of_getLsbD_eq fun c hc => ?_
  simpa [pixel, hr] using h r hr c hc

@[simp] theorem pixel_clearedDisplay (r c : Nat) : pixel clearedDisplay r c = false := by
  simp [pixel, clearedDisplay]

/-- Toggling a pixel of the grid inverts that pixel and no other. -/
theorem pixel_togglePixel (d : Display) {r c : Nat} (hr : r < 32) (hc : c < 64) (r' c' : Nat) :
    pixel (togglePixel d r c) r' c' = (pixel d r' c' ^^ decide (r' = r ∧ c' = c)) := by
  simp only [pixel, togglePixel, dif_pos hr]
  by_cases hr' : r' < 32
  · simp only [dif_pos hr', Vector.getElem_set]
    by_cases h : r = r'
    · subst h
      simp only [if_pos, BitVec.getLsbD_xor, true_and]
      congr 1
      by_cases hcc : c' = c
      · subst hcc; simp [hc]
      · simp only [hcc, decide_false, BitVec.getLsbD_shiftLeft, BitVec.getLsbD_one]
        by_cases h1 : c' < c
        · simp [h1]
        · simp [show c' - c ≠ 0 by omega]
    · simp [h, Ne.symm h]
  · simp only [dif_neg hr', Bool.false_bne]
    have : r' ≠ r := by omega
    simp [this]

/-- Whether a sprite row `b` drawn with its left edge at column `c0` covers column `c` (bit 7 is the
leftmost column). -/
def rowBit (b : Byte) (c0 n c : Nat) : Bool := decide (c0 ≤ c ∧ c < c0 + n) && b.getLsbD (7 - (c - c0))

/-- The first `n` columns of a sprite row: the pixels, and the collision. -/
theorem plotColumns_spec (b : Byte) {r : Nat} (hr : r < 32) (c0 : Nat) (p : Plot) (n : Nat) :
    (∀ r' c', c' < 64 → pixel ((List.range n).foldl (plotColumn b r c0) p).disp r' c' =
      (pixel p.disp r' c' ^^ (decide (r' = r) && rowBit b c0 n c'))) ∧
    (((List.range n).foldl (plotColumn b r c0) p).hit = true ↔
      p.hit = true ∨ ∃ c < 64, rowBit b c0 n c = true ∧ pixel p.disp r c = true) := by
  induction n with
  | zero =>
    constructor
    · intro r' c' _
      simp [rowBit, show ¬(c0 ≤ c' ∧ c' < c0) by omega]
    · simp [rowBit, show ∀ c, ¬(c0 ≤ c ∧ c < c0) by omega]
  | succ n ih =>
    obtain ⟨ihp, ihh⟩ := ih
    simp only [List.range_succ, List.foldl_append, List.foldl_cons, List.foldl_nil]
    generalize hq : (List.range n).foldl (plotColumn b r c0) p = q at ihp ihh ⊢
    have hbit : ∀ c, rowBit b c0 (n + 1) c =
        (rowBit b c0 n c || (decide (c = c0 + n) && b.getLsbD (7 - n))) := by
      intro c
      by_cases hc : c = c0 + n
      · subst hc; simp [rowBit]
      · simp [rowBit, hc, show (c < c0 + (n + 1) ↔ c < c0 + n) by omega]
    have hnot : rowBit b c0 n (c0 + n) = false := by simp [rowBit]
    by_cases hb : b.getLsbD (7 - n) = true ∧ c0 + n < 64
    · have hplot : plotColumn b r c0 q n =
          ⟨togglePixel q.disp r (c0 + n), q.hit || pixel q.disp r (c0 + n)⟩ := by
        simp [plotColumn, plotPixel, hb.1, hb.2, Config.displayW, Config.displayH, hr]
      rw [hplot]
      constructor
      · intro r' c' hc'
        rw [pixel_togglePixel _ hr hb.2, ihp r' c' hc', hbit, hb.1]
        by_cases h1 : r' = r <;> by_cases h2 : c' = c0 + n
        · subst h1 h2; simp [hnot]
        · simp [h1, h2]
        · simp [h1]
        · simp [h1]
      · have hold : pixel q.disp r (c0 + n) = pixel p.disp r (c0 + n) := by
          rw [ihp r _ hb.2, hnot]; simp
        simp only [Bool.or_eq_true, ihh, hold, hbit]
        constructor
        · rintro ((h | ⟨c, hc, h1, h2⟩) | h)
          · exact Or.inl h
          · exact Or.inr ⟨c, hc, Or.inl h1, h2⟩
          · exact Or.inr ⟨c0 + n, hb.2, Or.inr (by simp [hb.1]), h⟩
        · rintro (h | ⟨c, hc, h1 | h1, h2⟩)
          · exact Or.inl (Or.inl h)
          · exact Or.inl (Or.inr ⟨c, hc, h1, h2⟩)
          · simp only [Bool.and_eq_true, decide_eq_true_eq] at h1
            rw [h1.1] at h2
            exact Or.inr h2
    · have hplot : plotColumn b r c0 q n = q := by
        by_cases h1 : b.getLsbD (7 - n) = true
        · have : ¬ c0 + n < 64 := fun h => hb ⟨h1, h⟩
          simp [plotColumn, plotPixel, this, Config.displayW]
        · simp [plotColumn, h1]
      have hsame : ∀ c < 64, rowBit b c0 (n + 1) c = rowBit b c0 n c := by
        intro c hc
        rw [hbit]
        by_cases h1 : c = c0 + n
        · have : b.getLsbD (7 - n) = false := by
            have : ¬ b.getLsbD (7 - n) = true := fun h => hb ⟨h, by omega⟩
            simpa using this
          simp [this]
        · simp [h1]
      rw [hplot]
      constructor
      · intro r' c' hc'
        rw [ihp r' c' hc', hsame c' hc']
      · rw [ihh]
        refine or_congr Iff.rfl (exists_congr fun c => ?_)
        constructor
        · rintro ⟨hc, h1, h2⟩; exact ⟨hc, by rw [hsame c hc]; exact h1, h2⟩
        · rintro ⟨hc, h1, h2⟩; exact ⟨hc, by rw [← hsame c hc]; exact h1, h2⟩

theorem plotRow_below (b : Byte) {r : Nat} (hr : 32 ≤ r) (c0 : Nat) (p : Plot) :
    plotRow b r c0 p = p := by
  have : ∀ q col, plotColumn b r c0 q col = q := by
    intro q col
    have h : ¬ (c0 + col < Config.displayW ∧ r < Config.displayH) := by
      simp only [Config.displayW, Config.displayH]; omega
    rw [plotColumn, plotPixel, if_neg h, ite_self]
  rw [plotRow]
  generalize List.range 8 = l
  induction l with
  | nil => rfl
  | cons a l ih => rw [List.foldl_cons, this, ih]

/-- Whether the sprite with rows `bs` and origin row `r0`, column `c0` covers pixel `(r, c)`. -/
def spriteCovers (bs : List Byte) (r0 c0 r c : Nat) : Bool :=
  decide (r0 ≤ r) && rowBit ((bs[r - r0]?).getD 0) c0 8 c

theorem spriteCovers_cons (b : Byte) (bs : List Byte) (r0 c0 r c : Nat) :
    spriteCovers (b :: bs) r0 c0 r c =
      ((decide (r = r0) && rowBit b c0 8 c) || spriteCovers bs (r0 + 1) c0 r c) := by
  by_cases h1 : r = r0
  · subst h1; simp [spriteCovers, show ¬ r + 1 ≤ r by omega]
  · by_cases h2 : r0 + 1 ≤ r
    · obtain ⟨j, rfl⟩ : ∃ j, r = r0 + 1 + j := ⟨r - (r0 + 1), by omega⟩
      simp [spriteCovers, show r0 + 1 + j - r0 = j + 1 by omega, show r0 + 1 + j ≠ r0 by omega,
        show r0 ≤ r0 + 1 + j by omega, show r0 + 1 + j - (r0 + 1) = j by omega]
    · simp [spriteCovers, h1, show ¬ r0 ≤ r by omega, show ¬ r0 + 1 ≤ r by omega]

theorem spriteCovers_row (bs : List Byte) (r0 c0 c : Nat) :
    spriteCovers bs (r0 + 1) c0 r0 c = false := by
  simp [spriteCovers, show ¬ r0 + 1 ≤ r0 by omega]

/-- The closed form of the sprite scan: every pixel of the grid the sprite covers is inverted, no other
changes, and the collision says that some covered pixel was on before (R166). -/
theorem plotSprite_spec (r0 c0 : Nat) (p : Plot) (bs : List Byte) :
    (∀ r < 32, ∀ c < 64, pixel (plotSprite r0 c0 p bs).disp r c =
      (pixel p.disp r c ^^ spriteCovers bs r0 c0 r c)) ∧
    ((plotSprite r0 c0 p bs).hit = true ↔
      p.hit = true ∨
        ∃ r < 32, ∃ c < 64, spriteCovers bs r0 c0 r c = true ∧ pixel p.disp r c = true) := by
  induction bs generalizing r0 p with
  | nil => simp [plotSprite, spriteCovers, rowBit]
  | cons b bs ih =>
    obtain ⟨ihp, ihh⟩ := ih (r0 + 1) (plotRow b r0 c0 p)
    rw [plotSprite]
    by_cases hr0 : r0 < 32
    · have hrow := plotColumns_spec b hr0 c0 p 8
      change (∀ r' c', c' < 64 → pixel (plotRow b r0 c0 p).disp r' c' = _) ∧
        ((plotRow b r0 c0 p).hit = true ↔ _) at hrow
      constructor
      · intro r hr c hc
        rw [ihp r hr c hc, hrow.1 r c hc, spriteCovers_cons]
        by_cases h : r = r0
        · subst h; simp [spriteCovers_row]
        · simp [h]
      · rw [ihh, hrow.2]
        constructor
        · rintro ((h | ⟨c, hc, h1, h2⟩) | ⟨r, hr, c, hc, h1, h2⟩)
          · exact Or.inl h
          · exact Or.inr ⟨r0, hr0, c, hc, by simp [spriteCovers_cons, h1], h2⟩
          · refine Or.inr ⟨r, hr, c, hc, by simp [spriteCovers_cons, h1], ?_⟩
            have hne : r ≠ r0 := by
              rintro rfl
              simp [spriteCovers_row] at h1
            rw [hrow.1 r c hc] at h2
            simpa [hne] using h2
        · rintro (h | ⟨r, hr, c, hc, h1, h2⟩)
          · exact Or.inl (Or.inl h)
          · rw [spriteCovers_cons] at h1
            by_cases hne : r = r0
            · subst hne
              rw [spriteCovers_row] at h1
              exact Or.inl (Or.inr ⟨c, hc, by simpa using h1, h2⟩)
            · refine Or.inr ⟨r, hr, c, hc, by simpa [hne] using h1, ?_⟩
              rw [hrow.1 r c hc]
              simpa [hne] using h2
    · rw [plotRow_below b (by omega) c0 p] at ihp ihh ⊢
      have hcov : ∀ r < 32, ∀ c, spriteCovers (b :: bs) r0 c0 r c = spriteCovers bs (r0 + 1) c0 r c := by
        intro r hr c
        simp [spriteCovers, show ¬ r0 ≤ r by omega, show ¬ r0 + 1 ≤ r by omega]
      constructor
      · intro r hr c hc
        rw [ihp r hr c hc, hcov r hr]
      · rw [ihh]
        refine or_congr Iff.rfl ?_
        constructor
        · rintro ⟨r, hr, c, hc, h1, h2⟩; exact ⟨r, hr, c, hc, by rw [hcov r hr]; exact h1, h2⟩
        · rintro ⟨r, hr, c, hc, h1, h2⟩; exact ⟨r, hr, c, hc, by rw [← hcov r hr]; exact h1, h2⟩

/-- The sprite DRW draws, seen through memory: row `k` of it is the byte at `I + k` (R166). -/
theorem spriteCovers_bytesAtI (s : State) (n r0 c0 r c : Nat) :
    spriteCovers (bytesAtI s n) r0 c0 r c = true ↔
      r0 ≤ r ∧ r < r0 + n ∧ c0 ≤ c ∧ c < c0 + 8 ∧
        (s.mem.read (s.I.toNat + (r - r0))).getLsbD (7 - (c - c0)) = true := by
  by_cases h1 : r0 ≤ r ∧ r < r0 + n
  · rw [spriteCovers, bytesAtI, getElem?_loadBytes _ _ _ _ (by omega)]
    simp [rowBit, base, h1, and_assoc]
  · refine iff_of_false (fun h => ?_) fun h => h1 ⟨h.1, h.2.1⟩
    by_cases h3 : r0 ≤ r
    · rw [spriteCovers, List.getElem?_eq_none (by simp [bytesAtI]; omega)] at h
      simp [rowBit] at h
    · simp [spriteCovers, h3] at h

end Sys2Proof.Machine
end

