-- ==== Sys2Proof/Laws/Meanings.lean ====
section
/-! SUPPORT. The meanings that branch, each in closed form: every case with its condition and its result, so
that a proof splits on the condition and never unfolds the operations. -/

namespace Sys2Proof.Machine

/-- CALL pushes or reports (R101, R201). -/
theorem exec_call_eq (nnn : Addr12) (s : State) :
    exec (.call nnn) s =
      if h : s.sp.val < 16 then .next (setPc (setPushed s s.pc h) (zext16OfAddr nnn))
      else .next (setReport s .stackOverflow) := by
  simp only [exec, execCall, pushReturn_eq]
  by_cases h : s.sp.val < 16
  · simp only [dif_pos h]
  · simp only [dif_neg h]; rfl

/-- RET pops or reports (R102, R202). -/
theorem exec_ret_eq (s : State) :
    exec .ret s =
      if h : 0 < s.sp.val then .next (setPc (setPopped s) (s.stack[s.sp.val - 1]'(by omega)))
      else .next (setReport s .stackUnderflow) := by
  simp only [exec, execRet, popReturn_eq]
  by_cases h : 0 < s.sp.val
  · simp only [dif_pos h]
  · simp only [dif_neg h]; rfl

/-- SKP skips on a key that is down, or reports (R114, R203). -/
theorem exec_skp_eq (x : Reg) (s : State) :
    exec (.skp x) s =
      if h : (reg s x).toNat < 16 then .next (skipIf (keyDown s ⟨(reg s x).toNat, h⟩) s)
      else .next (setReport s .invalidKeyIndex) := by
  simp only [exec, execSkp, skipOnKey_eq, beq_true]

/-- SKNP skips on a key that is up, or reports (R115, R203). -/
theorem exec_sknp_eq (x : Reg) (s : State) :
    exec (.sknp x) s =
      if h : (reg s x).toNat < 16 then .next (skipIf (!keyDown s ⟨(reg s x).toNat, h⟩) s)
      else .next (setReport s .invalidKeyIndex) := by
  simp only [exec, execSknp, skipOnKey_eq, beq_false]

/-- LD F points at the digit's glyph or reports (R142, R204). -/
theorem exec_ldF_eq (x : Reg) (s : State) :
    exec (.ldF x) s =
      if (reg s x).toNat ≤ 0x0F then .next (setI s (glyphAddress (reg s x)))
      else .next (setReport s .invalidGlyphDigit) := rfl

theorem glyphAddress_toNat {b : Byte} (h : b.toNat ≤ 0x0F) :
    (glyphAddress b).toNat = 0x050 + 5 * b.toNat := by
  simp only [glyphAddress, Config.glyphBase, Config.glyphBytes, BitVec.toNat_ofNat]
  omega

/-- LD Vx, K takes the lowest key that is down, or rewinds when none is (R151). -/
theorem exec_ldVxK_cases (x : Reg) (s : State) :
    (∃ k : Fin 16, keyDown s k = true ∧ (∀ j : Fin 16, j.val < k.val → keyDown s j = false) ∧
      exec (.ldVxK x) s = .next (setReg s x (BitVec.ofNat 8 k.val))) ∨
    ((∀ k : Fin 16, keyDown s k = false) ∧ exec (.ldVxK x) s = .next (rewind s)) := by
  cases hk : lowestKeyDown s with
  | some k =>
    obtain ⟨hlt, hd, hall⟩ := (lowestKeyDown_eq_some s k).mp hk
    refine Or.inl ⟨⟨k, hlt⟩, hd, hall, ?_⟩
    simp only [exec, execLdVxK, hk]
  | none =>
    refine Or.inr ⟨(lowestKeyDown_eq_none s).mp hk, ?_⟩
    simp only [exec, execLdVxK, hk]

/-- LD B stores the digits or faults (R143). -/
theorem exec_ldB_eq (x : Reg) (s : State) :
    exec (.ldB x) s =
      if s.I.toNat + 3 ≤ 0x1000 then .next (setMem s (storedAtI s (decimalDigits (reg s x))))
      else raiseAddressFault (max s.I.toNat 0x1000) := by
  simp only [exec, execLdB, accessing_eq, show (3 : Nat) ≠ 0 by decide, false_or]
  rfl

/-- LD [I] stores the registers or faults (R144). -/
theorem exec_storeRange_eq (x : Reg) (s : State) :
    exec (.storeRange x) s =
      if s.I.toNat + (x.val + 1) ≤ 0x1000 then
        .next (setI (setMem s (storedAtI s (regRange s x))) (s.I + advanceOf rangeAdvance x))
      else raiseAddressFault (max s.I.toNat 0x1000) := by
  simp only [exec, execStoreRange, accessing_eq, show x.val + 1 ≠ 0 by omega, false_or]
  rfl

/-- LD Vx, [I] loads the registers or faults (R145). -/
theorem exec_loadRange_eq (x : Reg) (s : State) :
    exec (.loadRange x) s =
      if s.I.toNat + (x.val + 1) ≤ 0x1000 then
        .next (setI (setRegs s (loadRegs s.V 0 (bytesAtI s (x.val + 1))))
          (s.I + advanceOf rangeAdvance x))
      else raiseAddressFault (max s.I.toNat 0x1000) := by
  simp only [exec, execLoadRange, accessing_eq, show x.val + 1 ≠ 0 by omega, false_or]
  rfl

/-- The drawing DRW makes (R166). -/
def drawing (x y : Reg) (n : Fin 16) (s : State) : Plot :=
  plotSprite (originRow (reg s y)) (originColumn (reg s x)) ⟨s.disp, false⟩ (bytesAtI s n.val)

/-- DRW draws or faults (R166). -/
theorem exec_drw_eq (x y : Reg) (n : Fin 16) (s : State) :
    exec (.drw x y n) s =
      if n.val = 0 ∨ s.I.toNat + n.val ≤ 0x1000 then
        .next (setDisplay (setReg s regVF (collisionFlag (drawing x y n s).hit)) (drawing x y n s).disp)
      else raiseAddressFault (max s.I.toNat 0x1000) := by
  simp only [exec, execDrw, accessing_eq]
  rfl

end Sys2Proof.Machine
end

