-- ==== Sys2Proof/Laws/PerInstr.lean ====
section
/-! SUPPORT. The per-instruction family `EncodeFits`: the word the encoder gives an instruction is one its
row of the opcode map selects (spec/30_encoding.md R79). -/

namespace Sys2Proof.Laws.EncodeFits

/-- The encoder's word has the row's match under the row's mask. -/
def Statement (i : Instr) : Prop := i.wellFormed = true → encode i &&& (rowOf i).1 = (rowOf i).2

theorem cls : Statement .cls := by
  intro _
  decide

theorem ret : Statement .ret := by
  intro _
  decide

theorem jp (nnn : Addr12) : Statement (.jp nnn) := by
  intro _
  rw [rowOf, and_maskOp]; simp [encode]; rfl

theorem call (nnn : Addr12) : Statement (.call nnn) := by
  intro _
  rw [rowOf, and_maskOp]; simp [encode]; rfl

theorem seImm (x : Reg) (kk : Byte) : Statement (.seImm x kk) := by
  intro _
  rw [rowOf, and_maskOp]; simp [encode]; rfl

theorem sneImm (x : Reg) (kk : Byte) : Statement (.sneImm x kk) := by
  intro _
  rw [rowOf, and_maskOp]; simp [encode]; rfl

theorem seReg (x y : Reg) : Statement (.seReg x y) := by
  intro _
  rw [rowOf, and_maskOp]; simp [encode]; rfl

theorem ldImm (x : Reg) (kk : Byte) : Statement (.ldImm x kk) := by
  intro _
  rw [rowOf, and_maskOp]; simp [encode]; rfl

theorem addImm (x : Reg) (kk : Byte) : Statement (.addImm x kk) := by
  intro _
  rw [rowOf, and_maskOp]; simp [encode]; rfl

theorem ldReg (x y : Reg) : Statement (.ldReg x y) := by
  intro _
  rw [rowOf, and_maskOpN]; simp [encode]; rfl

theorem orReg (x y : Reg) : Statement (.orReg x y) := by
  intro _
  rw [rowOf, and_maskOpN]; simp [encode]; rfl

theorem andReg (x y : Reg) : Statement (.andReg x y) := by
  intro _
  rw [rowOf, and_maskOpN]; simp [encode]; rfl

theorem xorReg (x y : Reg) : Statement (.xorReg x y) := by
  intro _
  rw [rowOf, and_maskOpN]; simp [encode]; rfl

theorem addReg (x y : Reg) : Statement (.addReg x y) := by
  intro _
  rw [rowOf, and_maskOpN]; simp [encode]; rfl

theorem subReg (x y : Reg) : Statement (.subReg x y) := by
  intro _
  rw [rowOf, and_maskOpN]; simp [encode]; rfl

theorem shr (x y : Reg) : Statement (.shr x y) := by
  intro _
  rw [rowOf, and_maskOpN]; simp [encode]; rfl

theorem subnReg (x y : Reg) : Statement (.subnReg x y) := by
  intro _
  rw [rowOf, and_maskOpN]; simp [encode]; rfl

theorem shl (x y : Reg) : Statement (.shl x y) := by
  intro _
  rw [rowOf, and_maskOpN]; simp [encode]; rfl

theorem sneReg (x y : Reg) : Statement (.sneReg x y) := by
  intro _
  rw [rowOf, and_maskOp]; simp [encode]; rfl

theorem ldI (nnn : Addr12) : Statement (.ldI nnn) := by
  intro _
  rw [rowOf, and_maskOp]; simp [encode]; rfl

theorem jpV0 (nnn : Addr12) : Statement (.jpV0 nnn) := by
  intro _
  rw [rowOf, and_maskOp]; simp [encode]; rfl

theorem rnd (x : Reg) (kk : Byte) : Statement (.rnd x kk) := by
  intro _
  rw [rowOf, and_maskOp]; simp [encode]; rfl

theorem drw (x y : Reg) (n : Fin 16) : Statement (.drw x y n) := by
  intro _
  rw [rowOf, and_maskOp]; simp [encode]; rfl

theorem skp (x : Reg) : Statement (.skp x) := by
  intro _
  rw [rowOf, and_maskOpN]; simp [encode]; rfl

theorem sknp (x : Reg) : Statement (.sknp x) := by
  intro _
  rw [rowOf, and_maskOpN]; simp [encode]; rfl

theorem ldVxDt (x : Reg) : Statement (.ldVxDt x) := by
  intro _
  rw [rowOf, and_maskOpKK]; simp [encode]; rfl

theorem ldVxK (x : Reg) : Statement (.ldVxK x) := by
  intro _
  rw [rowOf, and_maskOpKK]; simp [encode]; rfl

theorem ldDtVx (x : Reg) : Statement (.ldDtVx x) := by
  intro _
  rw [rowOf, and_maskOpKK]; simp [encode]; rfl

theorem ldStVx (x : Reg) : Statement (.ldStVx x) := by
  intro _
  rw [rowOf, and_maskOpKK]; simp [encode]; rfl

theorem addI (x : Reg) : Statement (.addI x) := by
  intro _
  rw [rowOf, and_maskOpKK]; simp [encode]; rfl

theorem ldF (x : Reg) : Statement (.ldF x) := by
  intro _
  rw [rowOf, and_maskOpKK]; simp [encode]; rfl

theorem ldB (x : Reg) : Statement (.ldB x) := by
  intro _
  rw [rowOf, and_maskOpKK]; simp [encode]; rfl

theorem storeRange (x : Reg) : Statement (.storeRange x) := by
  intro _
  rw [rowOf, and_maskOpKK]; simp [encode]; rfl

theorem loadRange (x : Reg) : Statement (.loadRange x) := by
  intro _
  rw [rowOf, and_maskOpKK]; simp [encode]; rfl

theorem nop (w : Word) : Statement (.nop w) := by
  intro _
  simp [encode, rowOf]

end Sys2Proof.Laws.EncodeFits
end

