-- ==== Sys2Proof/Laws/Step.lean ====
section
/-! SUPPORT. The laws of a step and of the events: each function once, in closed form. -/

namespace Sys2Proof.Machine

/-- What the Cycle event does in every case (R70, R56, R205). -/
theorem step_eq (s : State) :
    step s =
      match s.faultMark with
      | some a => raiseAddressFault a
      | none =>
        if s.pc.toNat ≤ 0xFFE then exec (decode (wordAtPc s)) (beginCycle s)
        else raiseAddressFault (max s.pc.toNat 0x1000) := by
  rw [step, fetchWord_eq]
  cases s.faultMark with
  | some a => rfl
  | none =>
    by_cases h : s.pc.toNat ≤ 0xFFE
    · simp only [if_pos h]; rfl
    · simp only [if_neg h]

/-- A step that completes ran the fetched instruction on a machine without the fault mark. -/
theorem step_next {s t : State} (h : step s = .next t) :
    s.faultMark = none ∧ s.pc.toNat ≤ 0xFFE ∧ exec (decode (wordAtPc s)) (beginCycle s) = .next t := by
  rw [step_eq] at h
  cases hf : s.faultMark with
  | some a => rw [hf] at h; cases h
  | none =>
    rw [hf] at h
    by_cases hp : s.pc.toNat ≤ 0xFFE
    · exact ⟨rfl, hp, by simpa [hp] using h⟩
    · simp [hp, raiseAddressFault] at h

/-- A machine that fetches `i` runs `i`. -/
theorem step_of_fetches {s : State} {i : Instr} (h : fetches s i) : step s = exec i (beginCycle s) := by
  rw [step_eq, h.1]
  simp only [if_pos h.2.1, h.2.2]

/-- An event on a machine without the fault mark is its effect. -/
theorem event_eq_effect {s : State} (h : s.faultMark = none) (e : Event) :
    event e s = eventEffect e s := by
  simp only [event, h]

/-- An event other than Reset on a faulted machine faults at the marked address (R205, D26). -/
theorem event_of_faulted {s : State} {a : Nat} (h : s.faultMark = some a) {e : Event}
    (he : e ≠ .reset) : event e s = raiseAddressFault a := by
  simp only [event, h]
  cases e <;> first | rfl | exact absurd rfl he

@[simp] theorem event_reset (s : State) : event .reset s = .next (resetEvent s) := by
  unfold event
  split <;> rfl

theorem deliver_of_next {s t : State} {e : Event} (h : event e s = .next t) : deliver s e = t := by
  rw [deliver, h]

theorem deliver_of_fault {s : State} {e : Event} {a : Nat} (h : event e s = .fault (.addressFault a)) :
    deliver s e = setFaultMark s (some a) := by
  rw [deliver, h]

theorem deliver_of_refused {s : State} {e : Event} {r : Refusal} (h : event e s = .refused r) :
    deliver s e = s := by
  rw [deliver, h]

/-- A timer counts down to 0 and stays there (R210). -/
theorem countDown_toNat (b : Byte) : (countDown b).toNat = b.toNat - 1 := by
  rw [countDown]
  split
  · subst b; rfl
  · rename_i h
    have h0 : b.toNat ≠ 0 := fun h0 => h (BitVec.eq_of_toNat_eq (by simpa using h0))
    have := b.isLt
    rw [BitVec.toNat_sub_of_le (by rw [BitVec.le_def]; simp; omega)]
    rfl

end Sys2Proof.Machine
end

