-- ==== Sys2Proof/Tests/Slice0.lean ====
section
/-! SUPPORT. The model's own tests. Expected values are those of spec/95_test_vectors.md (the vector is named
at each test) or of the worked example of the instruction's rule; words are written out bit by bit from the
formats of spec/30_encoding.md R73 and the selectors of R79. Then, for every statement with hypotheses, a
witness that meets them all together. -/

namespace Sys2Proof.Tests

open Sys2Proof.Machine

/-! ## Well-formedness: each check of `Instr.wellFormed` refuses an ill-formed term (R82) -/

theorem test_nop_with_cls_word_is_ill_formed : (Instr.nop 0x00E0).wellFormed = false := by decide
theorem test_nop_with_ret_word_is_ill_formed : (Instr.nop 0x0ABE).wellFormed = false := by decide
theorem test_nop_with_jp_word_is_ill_formed : (Instr.nop 0x1ABC).wellFormed = false := by decide
theorem test_nop_with_family8_word_is_ill_formed : (Instr.nop 0x8AB7).wellFormed = false := by decide
theorem test_nop_with_familyE_word_is_ill_formed : (Instr.nop 0xE3F1).wellFormed = false := by decide
theorem test_nop_with_familyF_word_is_ill_formed : (Instr.nop 0xFA65).wellFormed = false := by decide

/-- The unmapped words of V-NOP are well formed as NOPs. -/
theorem test_nop_with_unmapped_word_is_well_formed :
    ([0x0123, 0x00E1, 0x8AB8, 0x8ABF, 0xE09D, 0xE000, 0xF000, 0xF0FF, 0xF075, 0xF130] : List Word).all
      (fun w => (Instr.nop w).wellFormed) = true := by decide

/-! ## Decoding: words written out from the spec's encoding -/

/-- Format S4: op 0, selector in bits 3..0. -/
theorem test_decode_family0 :
    decode 0b0000000011100000 = .cls ∧ decode 0b0000101010111110 = .ret ∧
    decode 0b0000000000010111 = .nop 0x0017 := by decide

/-- Format A: op, `nnn`. -/
theorem test_decode_addresses :
    decode 0b0001101010111100 = .jp 0xABC ∧ decode 0b0010101010111101 = .call 0xABD ∧
    decode 0b1010000100100011 = .ldI 0x123 ∧ decode 0b1011001100000000 = .jpV0 0x300 := by decide

/-- Format XK: op, `x`, `kk`. -/
theorem test_decode_immediates :
    decode 0b0011001101000100 = .seImm 3 0x44 ∧ decode 0b0100001001000101 = .sneImm 2 0x45 ∧
    decode 0b0110101000000101 = .ldImm 10 0x05 ∧ decode 0b0111000100000110 = .addImm 1 0x06 ∧
    decode 0b1100011100001111 = .rnd 7 0x0F := by decide

/-- Format XY: op 5 or 9, `x`, `y`, bits 3..0 ignored. -/
theorem test_decode_register_skips :
    decode 0b0101001101001111 = .seReg 3 4 ∧ decode 0b1001010100100000 = .sneReg 5 2 := by decide

/-- Format XYS: op 8, `x`, `y`, selector. -/
theorem test_decode_family8 :
    decode 0b1000000100100000 = .ldReg 1 2 ∧ decode 0b1000001100010001 = .orReg 3 1 ∧
    decode 0b1000000111110010 = .andReg 1 15 ∧ decode 0b1000111000100011 = .xorReg 14 2 ∧
    decode 0b1000101010110100 = .addReg 10 11 ∧ decode 0b1000111100010101 = .subReg 15 1 ∧
    decode 0b1000000111110110 = .shr 1 15 ∧ decode 0b1000011000010111 = .subnReg 6 1 ∧
    decode 0b1000000101001110 = .shl 1 4 ∧ decode 0b1000000101001000 = .nop 0x8148 := by decide

/-- Format XYN: op D, `x`, `y`, `n`. -/
theorem test_decode_drw : decode 0b1101000100101111 = .drw 1 2 15 := by decide

/-- Format XS4: op E, `x`, bits 7..4 ignored, selector. -/
theorem test_decode_familyE :
    decode 0b1110001110011110 = .skp 3 ∧ decode 0b1110010011110001 = .sknp 4 ∧
    decode 0b1110001110100010 = .nop 0xE3A2 := by decide

/-- Format XS8: op F, `x`, selector in bits 7..0. -/
theorem test_decode_familyF :
    decode 0b1111010100000111 = .ldVxDt 5 ∧ decode 0b1111011000001010 = .ldVxK 6 ∧
    decode 0b1111010100010101 = .ldDtVx 5 ∧ decode 0b1111000100011000 = .ldStVx 1 ∧
    decode 0b1111001000011110 = .addI 2 ∧ decode 0b1111010000101001 = .ldF 4 ∧
    decode 0b1111100000110011 = .ldB 8 ∧ decode 0b1111001101010101 = .storeRange 3 ∧
    decode 0b1111001001100101 = .loadRange 2 ∧ decode 0b1111000001110101 = .nop 0xF075 := by decide

/-- The first byte is the high one (R52, R71), and the rest of the bytes is returned. -/
theorem test_decode_bytes :
    decodeBytes [0x6A, 0x05, 0x6B] = .ok (.ldImm 10 0x05, [0x6B]) := rfl

theorem test_decode_one_byte_is_rejected :
    decodeBytes [0x6A] = .error .fewerThanTwoBytes := rfl

/-! ## One step -/

/-- The next state, if there is one. -/
def resultOf : Result → Option State
  | .next t => some t
  | .fault _ => none
  | .refused _ => none

/-- The address a step faults at. -/
def faultOf : Result → Option Nat
  | .next _ => none
  | .fault (.addressFault a) => some a
  | .refused _ => none

/-- What `f` sees after one step on the word `w` placed at `pc`. -/
def after {α : Type} (s : State) (w : Nat) (f : State → α) : Option α :=
  (resultOf (step (s.withFetchWord 16 w))).map f

/-- Registers set from a list of numbers and values, everything else as after reset. -/
def withRegs (l : List (Reg × Byte)) : State := l.foldl (fun s p => setReg s p.1 p.2) State.reset

/-- V-CTL 1. -/
theorem test_jp : after .reset 0x1ABC (·.pc) = some 0xABC := by decide
/-- V-CTL 2. -/
theorem test_call :
    after .reset 0x2ABD (fun t => (t.pc, t.sp, t.stack[0])) = some (0xABD, 1, 0x202) := by decide
/-- V-CTL 6. -/
theorem test_call_overflow :
    after { State.reset with sp := 16 } 0x2300 (fun t => (t.pc, t.sp, t.reportOut)) =
      some (0x202, 16, .stackOverflow) := by decide
/-- V-CTL 5. -/
theorem test_ret :
    after { State.reset with sp := 1, stack := State.reset.stack.set 0 0x206, pc := 0x20C } 0x00EE
      (fun t => (t.pc, t.sp, t.stack[0])) = some (0x206, 0, 0x206) := by decide
/-- V-CTL 4. -/
theorem test_ret_underflow :
    after .reset 0x0ABE (fun t => (t.pc, t.sp, t.reportOut)) = some (0x202, 0, .stackUnderflow) := by decide
/-- V-CTL 8. -/
theorem test_jpV0 : after (withRegs [(0, 0xFF)]) 0xBFFF (·.pc) = some 0x10FE := by decide
/-- V-CTL 8, the next Cycle. -/
theorem test_fetch_far_fault : faultOf (step { State.reset with pc := 0x10FE }) = some 0x10FE := by decide
/-- V-CTL 11. -/
theorem test_fetch_second_byte_fault :
    faultOf (step { State.reset with pc := 0xFFF }) = some 0x1000 := by decide
/-- V-CTL 10. -/
theorem test_fetch_last_word : (resultOf (step { State.reset with pc := 0xFFE })).map (·.pc) = some 0x1000 := by
  decide

/-- V-SKP 1, 2. -/
theorem test_seImm : after (withRegs [(3, 0x44)]) 0x3344 (·.pc) = some 0x204 ∧
    after (withRegs [(3, 0x45)]) 0x3344 (·.pc) = some 0x202 := by decide
/-- V-SKP 3, 4. -/
theorem test_sneImm : after (withRegs [(3, 0x44)]) 0x4344 (·.pc) = some 0x202 ∧
    after (withRegs [(3, 0x45)]) 0x4344 (·.pc) = some 0x204 := by decide
/-- V-SKP 6, 7. -/
theorem test_seReg : after (withRegs [(3, 7), (4, 8)]) 0x5340 (·.pc) = some 0x202 ∧
    after (withRegs [(3, 7), (4, 7)]) 0x534F (·.pc) = some 0x204 := by decide
/-- V-SKP 9, 11. -/
theorem test_sneReg : after (withRegs [(3, 7), (4, 7)]) 0x9340 (·.pc) = some 0x202 ∧
    after (withRegs [(3, 7), (4, 8)]) 0x9347 (·.pc) = some 0x204 := by decide
/-- V-SKP 12, 13. -/
theorem test_skp : after (setKey (withRegs [(3, 7)]) 7 true) 0xE39E (·.pc) = some 0x204 ∧
    after (withRegs [(3, 7)]) 0xE39E (·.pc) = some 0x202 := by decide
/-- V-SKP 16. -/
theorem test_skp_invalid_key :
    after (setKey (withRegs [(3, 0x10)]) 0 true) 0xE39E (fun t => (t.pc, t.reportOut)) =
      some (0x202, .invalidKeyIndex) := by decide
/-- V-SKP 14, 15. -/
theorem test_sknp : after (setKey (withRegs [(3, 7)]) 7 true) 0xE3A1 (·.pc) = some 0x202 ∧
    after (withRegs [(3, 7)]) 0xE3A1 (·.pc) = some 0x204 := by decide
/-- V-SKP 17. -/
theorem test_sknp_invalid_key :
    after (withRegs [(3, 0x10)]) 0xE3A1 (fun t => (t.pc, t.reportOut)) =
      some (0x202, .invalidKeyIndex) := by decide

/-- V-ALU 1. -/
theorem test_ldImm : after .reset 0x6A05 (fun t => (reg t 10, t.pc)) = some (5, 0x202) := by decide
/-- V-ALU 4, 5. -/
theorem test_addImm : after (withRegs [(0, 3)]) 0x70FF (fun t => (reg t 0, reg t 15)) = some (2, 0) ∧
    after (withRegs [(15, 0xFF)]) 0x7F02 (reg · 15) = some 1 := by decide
/-- V-ALU 6. -/
theorem test_ldReg : after (withRegs [(2, 0x9C)]) 0x8120 (reg · 1) = some 0x9C := by decide

/-- `V1` and `VF` after a two-register word with `x = 1`, `y = 2`. -/
def aluAfter (vx vy vf : Byte) (w : Nat) : Option (Byte × Byte) :=
  after (withRegs [(1, vx), (2, vy), (15, vf)]) w (fun t => (reg t 1, reg t 15))

/-- V-ALU 7. -/
theorem test_or : aluAfter 0x5A 0x0F 0x77 0x8121 = some (0x5F, 0x77) := by decide
/-- V-ALU 8. -/
theorem test_and : aluAfter 0x5A 0x0F 0x77 0x8122 = some (0x0A, 0x77) := by decide
/-- V-ALU 9. -/
theorem test_xor : aluAfter 0x5A 0x0F 0x77 0x8123 = some (0x55, 0x77) := by decide
/-- V-ALU, rows FF/01, 80/80, 7F/55 of ADD. -/
theorem test_add : aluAfter 0xFF 0x01 9 0x8124 = some (0x00, 1) ∧ aluAfter 0x80 0x80 9 0x8124 = some (0, 1) ∧
    aluAfter 0x7F 0x55 9 0x8124 = some (0xD4, 0) := by decide
/-- V-ALU A1, A2: the flag register as destination and as source. -/
theorem test_add_vf : after (withRegs [(15, 0x90), (1, 0x80)]) 0x8F14 (reg · 15) = some 0x10 ∧
    after (withRegs [(15, 0x90), (1, 0x80)]) 0x81F4 (fun t => (reg t 1, reg t 15)) = some (0x10, 1) := by decide
/-- V-ALU, rows 05/03, 00/01, FF/FF of SUB. -/
theorem test_sub : aluAfter 5 3 9 0x8125 = some (2, 1) ∧ aluAfter 0 1 9 0x8125 = some (0xFF, 0) ∧
    aluAfter 0xFF 0xFF 9 0x8125 = some (0, 1) := by decide
/-- V-ALU A4, A5. -/
theorem test_sub_vf : after (withRegs [(15, 0x90), (1, 0x80)]) 0x8F15 (reg · 15) = some 0x10 ∧
    after (withRegs [(15, 0x90), (1, 0x80)]) 0x81F5 (fun t => (reg t 1, reg t 15)) = some (0xF0, 0) := by decide
/-- V-ALU, rows 05/03, 10/20, 05/05 of SUBN. -/
theorem test_subn : aluAfter 5 3 9 0x8127 = some (0xFE, 0) ∧ aluAfter 0x10 0x20 9 0x8127 = some (0x10, 1) ∧
    aluAfter 5 5 9 0x8127 = some (0, 1) := by decide
/-- V-ALU A7, A8. -/
theorem test_subn_vf : after (withRegs [(15, 0x90), (1, 0x80)]) 0x8F17 (reg · 15) = some 0xF0 ∧
    after (withRegs [(15, 0x90), (1, 0x80)]) 0x81F7 (fun t => (reg t 1, reg t 15)) = some (0x10, 1) := by decide
/-- V-ALU, rows FF/AA, 80/00 of SHR. -/
theorem test_shr : aluAfter 0xFF 0xAA 9 0x8126 = some (0x7F, 1) ∧
    aluAfter 0x80 0x00 9 0x8126 = some (0x40, 0) := by decide
/-- V-ALU A10, A11. -/
theorem test_shr_vf : after (withRegs [(15, 0x90), (1, 0x80)]) 0x8F06 (reg · 15) = some 0x48 ∧
    after (withRegs [(15, 0x90), (1, 0x80)]) 0x81F6 (fun t => (reg t 1, reg t 15)) = some (0x40, 0) := by decide
/-- V-ALU, rows 7F/55, 80/00 of SHL. -/
theorem test_shl : aluAfter 0x7F 0x55 9 0x812E = some (0xFE, 0) ∧
    aluAfter 0x80 0x00 9 0x812E = some (0x00, 1) := by decide
/-- V-ALU A12, A13. -/
theorem test_shl_vf : after (withRegs [(15, 0x90), (1, 0x80)]) 0x8F0E (reg · 15) = some 0x20 ∧
    after (withRegs [(15, 0x90), (1, 0x80)]) 0x81FE (fun t => (reg t 1, reg t 15)) = some (0, 1) := by decide

/-- V-IDX 1. -/
theorem test_ldI : after .reset 0xA123 (·.I) = some 0x123 := by decide
/-- V-IDX 4. -/
theorem test_addI : after (setI (withRegs [(2, 0x20)]) 0xFFF0) 0xF21E (fun t => (t.I, reg t 15)) =
    some (0x10, 0) := by decide
/-- V-IDX 8. -/
theorem test_ldF : after (withRegs [(4, 0xF)]) 0xF429 (·.I) = some 0x9B := by decide
/-- V-IDX 9. -/
theorem test_ldF_invalid_digit : after (setI (withRegs [(4, 0x10)]) 0x123) 0xF429
    (fun t => (t.I, t.pc, t.reportOut)) = some (0x123, 0x202, .invalidGlyphDigit) := by decide
/-- V-IDX 11. -/
theorem test_ldB : after (setI (withRegs [(4, 0xFF)]) 0xFFD) 0xF433
    (fun t => (t.mem.read 0xFFD, t.mem.read 0xFFE, t.mem.read 0xFFF, t.I)) = some (2, 5, 5, 0xFFD) := by decide
/-- V-IDX 13. -/
theorem test_ldB_fault :
    faultOf (step ((setI (withRegs [(4, 0xFF)]) 0xFFFF).withFetchWord 16 0xF433)) = some 0xFFFF := by decide
/-- V-IDX 15: `V0`, `V3`, the next byte and `I`. -/
theorem test_storeRange : after (setI (withRegs [(0, 0x10), (1, 0x11), (2, 0x12), (3, 0x13), (4, 0x14)]) 0x300)
    0xF355 (fun t => (t.mem.read 0x300, t.mem.read 0x303, t.mem.read 0x304, t.I)) =
      some (0x10, 0x13, 0, 0x304) := by decide
/-- V-IDX 19. -/
theorem test_storeRange_fault :
    faultOf (step ((setI State.reset 0xFF1).withFetchWord 16 0xFF55)) = some 0x1000 := by decide
/-- V-IDX 20. -/
theorem test_loadRange : after
    (setMem (setI (withRegs [(3, 0x11)]) 0x300) [(0x300, 0xA0), (0x301, 0xA1), (0x302, 0xA2), (0x303, 0xA3)])
    0xF265 (fun t => (reg t 0, reg t 2, reg t 3, t.I)) = some (0xA0, 0xA2, 0x11, 0x303) := by decide
/-- V-IDX 23. -/
theorem test_loadRange_fault :
    faultOf (step ((setI State.reset 0xFFE).withFetchWord 16 0xF265)) = some 0x1000 := by decide

/-- V-TMR 1. -/
theorem test_ldVxDt : after (setDT State.reset 0x2A) 0xF507 (fun t => (reg t 5, t.DT)) =
    some (0x2A, 0x2A) := by decide
/-- V-TMR 2. -/
theorem test_ldDtVx : after (withRegs [(5, 0x3C)]) 0xF515 (fun t => (t.DT, t.ST)) = some (0x3C, 0) := by decide
/-- V-TMR 3. -/
theorem test_ldStVx : after (withRegs [(5, 0x3C)]) 0xF518 (fun t => (t.DT, t.ST, t.soundCueOut)) =
    some (0, 0x3C, false) := by decide
/-- V-TMR 4. -/
theorem test_ldVxK_waits : after (withRegs [(6, 0x55)]) 0xF60A (fun t => (t.pc, reg t 6)) =
    some (0x200, 0x55) := by decide
/-- V-TMR 5. -/
theorem test_ldVxK : after (setKey (setKey (withRegs [(6, 0x55)]) 4 true) 12 true) 0xF60A
    (fun t => (t.pc, reg t 6)) = some (0x202, 4) := by decide

/-- V-RND 3: with mask 00 the result is 00 whatever the draw. -/
theorem test_rnd_zero_mask : after .reset 0xC700 (reg · 7) = some 0 := by
  have h : maskedRandom (nextRandom State.reset) 0 = 0 := BitVec.and_zero
  show some (maskedRandom (nextRandom State.reset) 0) = some 0
  rw [h]
/-- V-RND 2, with the draw left free. -/
theorem test_rnd_full_mask (s : State) :
    exec (.rnd 7 0xFF) s = .next (advanceDraws (setReg s 7 (Config.randByte s.draws))) := by
  have h : maskedRandom (nextRandom s) 0xFF = Config.randByte s.draws := by
    show Config.randByte s.draws &&& BitVec.allOnes 8 = _
    exact BitVec.and_allOnes
  simp only [exec, execRnd, h]

/-- The sprite data of V-DRW. -/
def spriteMemory : Memory := [(0x300, 0x80), (0x301, 0x01), (0x302, 0xFF), (0x310, 0xC0), (0x311, 0xC0)]

/-- The pixels (row, column) that are on, rows 0 to 31. -/
def pixelsOn (d : Display) : List (Nat × Nat) :=
  (List.range 32).flatMap fun r => ((List.range 64).filter (pixel d r)).map fun c => (r, c)

/-- V-DRW 4: the origin wraps. -/
theorem test_drw_wraps_origin : after (setMem (setI (withRegs [(0, 67), (1, 34)]) 0x302) spriteMemory) 0xD011
    (fun t => (pixelsOn t.disp, reg t 15, t.drawFlag)) =
      some ([(2, 3), (2, 4), (2, 5), (2, 6), (2, 7), (2, 8), (2, 9), (2, 10)], 0, true) := by decide
/-- V-DRW 6: the bottom edge clips. -/
theorem test_drw_clips : after (setMem (setI (withRegs [(0, 0), (1, 31)]) 0x310) spriteMemory) 0xD012
    (fun t => (pixelsOn t.disp, reg t 15)) = some ([(31, 0), (31, 1)], 0) := by decide
/-- V-CLS with word 0AB0. -/
theorem test_cls : after { State.reset with disp := togglePixel State.reset.disp 3 3 } 0x0AB0
    (fun t => (pixelsOn t.disp, t.drawFlag, t.pc)) = some ([], true, 0x202) := by decide

/-- V-NOP, word F075: nothing but `pc` changes. -/
theorem test_nop : after (withRegs [(10, 5), (11, 3)]) 0xF075 id =
    some { (withRegs [(10, 5), (11, 3)]).withFetchWord 16 0xF075 with pc := 0x202 } := by decide

/-! ## Events -/

/-- V-TMR 10 and 12. -/
theorem test_tick60 :
    (resultOf (event .tick60 { State.reset with DT := 2, ST := 1 })).map
      (fun t => (t.DT, t.ST, t.soundCueOut)) = some (1, 0, true) ∧
    (resultOf (event .tick60 { State.reset with DT := 0, ST := 2 })).map
      (fun t => (t.DT, t.ST, t.soundCueOut)) = some (0, 1, false) := by decide

/-- P1's first word, loaded as R243 says. -/
theorem test_loadImage : (resultOf (event (.loadImage [0x6A, 0x05]) .reset)).map
    (fun t => (t.mem, t.reportOut, t.pc)) = some ([(0x200, 0x6A), (0x201, 0x05)], .none, 0x200) := by decide

/-- The glyph of A at 0x082 is F0 90 F0 90 90 (P7), a byte of memory is zero elsewhere (R57). -/
theorem test_reset_memory : (List.range 6).map (fun k => State.reset.mem.read (0x082 + k)) =
    [0xF0, 0x90, 0xF0, 0x90, 0x90, 0xE0] ∧ State.reset.mem.read 0x04F = 0 ∧
    State.reset.mem.read 0x0A0 = 0 := by decide

/-! ## Witnesses: for each statement with hypotheses, a concrete state and operands that meet them together,
one for each clause, at boundary values -/

/-- The reset state with a word at `pc`. -/
def placed (w : Nat) : State := State.reset.withFetchWord 16 w

/-- The reset state with `I` set. -/
def indexed (w : Word) : State := setI State.reset w

theorem witness_DecodeOfEncodeIsTheInstruction :
    (Instr.nop 0xFFFF).wellFormed = true ∧ (Instr.drw 15 15 15).wellFormed = true := by decide

theorem witness_UnmappedWordsDecodeToNop :
    unmapped 0x800F = true ∧ decode 0x800F = .nop 0x800F ∧ unmapped 0x800E = false := by decide

theorem witness_DecodeFollowsTheOpcodeMap_selected :
    (0xF0FF, 0xF065) ∈ opcodeRows ∧ rowSelects (0xF0FF, 0xF065) 0xFA65 = true := by decide

theorem witness_DecodeFollowsTheOpcodeMap_unselected : ∀ row ∈ opcodeRows, rowSelects row 0xFA66 = false := by
  have h : opcodeRows.all (fun row => rowSelects row 0xFA66 == false) = true := by decide
  intro row hr
  exact beq_iff_eq.mp (List.all_eq_true.mp h row hr)

theorem witness_StepRunsTheDecodedInstruction : fetches (placed 0x6A05) (.ldImm 10 0x05) :=
  ⟨rfl, by decide, by decide⟩

/-- The last address a word can be fetched from. -/
theorem witness_StepRunsTheDecodedInstruction_last : fetches { State.reset with pc := 0xFFE } .cls :=
  ⟨rfl, by decide, by decide⟩

theorem witness_FetchAboveMemoryFaults :
    State.reset.faultMark = none ∧ 0xFFE < ({ State.reset with pc := 0xFFF } : State).pc.toNat := by decide

theorem witness_FetchIsBigEndian : ({ State.reset with pc := 0xFFE } : State).pc.toNat ≤ 0xFFE := by decide

theorem witness_StoredWordIsFetchedNext :
    (indexed 0x200).I = (indexed 0x200).pc ∧ 1 ≤ (1 : Reg).val ∧
    ∃ t, exec (.storeRange 1) (indexed 0x200) = .next t := ⟨rfl, by decide, _, rfl⟩

theorem witness_InstructionsFaultExactlyAboveMemory :
    (1 ≤ accessCount (.ldB 0) ∧ 0xFFF < (indexed 0xFFE).I.toNat + accessCount (.ldB 0) - 1) ∧
    ¬(1 ≤ accessCount (.ldB 0) ∧ 0xFFF < (indexed 0xFFD).I.toNat + accessCount (.ldB 0) - 1) ∧
    ¬(1 ≤ accessCount (.drw 0 0 0) ∧ 0xFFF < (indexed 0xFFFF).I.toNat + accessCount (.drw 0 0 0) - 1) := by
  decide

theorem witness_StepKeepsTheInvariant :
    Inv { State.reset with pc := 0xFFE } ∧ ∃ t, step { State.reset with pc := 0xFFE } = .next t :=
  ⟨⟨by decide, by decide, by decide⟩, _, rfl⟩

theorem witness_EveryReachableStateMeetsTheInvariant :
    Inv { State.reset with pc := 0x10FE } ∧ Reachable (deliver State.reset .tick60) :=
  ⟨⟨by decide, by decide, by decide⟩, .event _ _ .reset⟩

theorem witness_MemoryFrameOfEveryInstruction :
    (∃ t, exec (.storeRange 3) (indexed 0x300) = .next t) ∧
    0x2FF < base (indexed 0x300) ∧ base (indexed 0x300) + storeCount (.storeRange 3) ≤ 0x304 :=
  ⟨⟨_, rfl⟩, by decide, by decide⟩

theorem witness_RegisterFrameOfEveryInstruction :
    (∃ t, exec (.addReg 1 2) State.reset = .next t) ∧ ¬ writesReg (.addReg 1 2) 2 ∧
    (∃ t, exec (.loadRange 3) State.reset = .next t) ∧ ¬ writesReg (.loadRange 3) 4 :=
  ⟨⟨_, rfl⟩, by unfold writesReg; decide, ⟨_, rfl⟩, by unfold writesReg; decide⟩

theorem witness_StateFrameOfEveryInstruction_index :
    ∃ t, exec (.ldI 5) State.reset = .next t ∧ t.I ≠ State.reset.I := ⟨_, rfl, by decide⟩

theorem witness_StateFrameOfEveryInstruction_stack :
    ∃ t, exec (.call 5) State.reset = .next t ∧ t.stack ≠ State.reset.stack ∧ t.sp ≠ State.reset.sp :=
  ⟨_, rfl, by decide, by decide⟩

theorem witness_StateFrameOfEveryInstruction_timers :
    (∃ t, exec (.ldDtVx 1) (withRegs [(1, 7)]) = .next t ∧ t.DT ≠ (withRegs [(1, 7)]).DT) ∧
    (∃ t, exec (.ldStVx 1) (withRegs [(1, 7)]) = .next t ∧ t.ST ≠ (withRegs [(1, 7)]).ST) :=
  ⟨⟨_, rfl, by decide⟩, _, rfl, by decide⟩

theorem witness_StateFrameOfEveryInstruction_display :
    (∃ t, exec .cls State.reset = .next t ∧ t.drawFlag ≠ State.reset.drawFlag) ∧
    (∃ t, exec (.drw 0 0 1) (indexed 0x50) = .next t ∧ t.disp ≠ (indexed 0x50).disp) :=
  ⟨⟨_, rfl, by decide⟩, _, rfl, by decide⟩

theorem witness_StateFrameOfEveryInstruction_draws :
    ∃ t, exec (.rnd 0 0) State.reset = .next t ∧ t.draws ≠ State.reset.draws := ⟨_, rfl, by decide⟩

theorem witness_PcAfterEachInstruction :
    State.reset.pc = 0x1FE + 2 ∧ ∃ t, exec (.seImm 0 0) State.reset = .next t := ⟨by decide, _, rfl⟩

theorem witness_ReportIsTheTabulatedCondition :
    fetches (placed 0x00EE) .ret ∧ ∃ t, step (placed 0x00EE) = .next t :=
  ⟨⟨rfl, by decide, by decide⟩, _, rfl⟩

theorem witness_UnreadStateDoesNotReachTheProgram :
    hideUnread State.reset =
      hideUnread { State.reset with ST := 9, drawFlag := true, reportOut := .stackOverflow, soundCueOut := true } :=
  rfl

theorem witness_UnreadRegistersDoNotMatter :
    (¬ readsReg (.addReg 1 2) 3 ∧ ∃ t, exec (.addReg 1 2) State.reset = .next t) ∧
    (¬ readsReg (.addReg 1 2) 15 ∧ writesReg (.addReg 1 2) 15) :=
  ⟨⟨by simp [readsReg], _, rfl⟩, by simp [readsReg], by simp [writesReg]⟩

theorem witness_JumpGoesToItsAddress : (0x1FFF : Word) &&& 0xF000 = 0x1000 := by decide

theorem witness_CallPushesOrReportsOverflow :
    ({ State.reset with sp := 15 } : State).sp.val < 16 ∧
    ({ State.reset with sp := 16 } : State).sp.val = 16 := by decide

theorem witness_ReturnPopsOrReportsUnderflow :
    (0x0FFE : Word) &&& 0xF00F = 0x000E ∧ ({ State.reset with sp := 1 } : State).sp.val = (0 : Fin 16).val + 1 ∧
    ({ State.reset with sp := 16 } : State).sp.val = (15 : Fin 16).val + 1 ∧ State.reset.sp.val = 0 := by decide

theorem witness_JumpWithOffsetAddsV0 : (0xBFFF : Word) &&& 0xF000 = 0xB000 := by decide

theorem witness_CallThenReturnComesBack :
    State.reset.sp.val < 16 ∧ ∃ t u : State, exec (.call 0x300) State.reset = .next t ∧
      u.stack = t.stack ∧ u.sp = t.sp ∧ u.pc = 0x400 :=
  ⟨by decide, _, { State.reset with stack := State.reset.stack.set 0 0x200, sp := 1, pc := 0x400 }, rfl, rfl, rfl,
    rfl⟩

theorem witness_CompareSkipsTheNextInstruction :
    (0x3FFF : Word) &&& 0xF000 = 0x3000 ∧ (0x4FFF : Word) &&& 0xF000 = 0x4000 ∧
    (0x5FFF : Word) &&& 0xF000 = 0x5000 ∧ (0x9FFF : Word) &&& 0xF000 = 0x9000 := by decide

theorem witness_KeySkipsFollowTheKeypad :
    (0xEFFE : Word) &&& 0xF00F = 0xE00E ∧ (0xEFF1 : Word) &&& 0xF00F = 0xE001 ∧
    (reg (withRegs [(3, 15)]) 3).toNat = (15 : Fin 16).val ∧ 16 ≤ (reg (withRegs [(3, 16)]) 3).toNat := by decide

/-- The state with register 3 at 16 and a word at `pc`. -/
def placed16 (w : Nat) : State := (withRegs [(3, 16)]).withFetchWord 16 w

theorem witness_RejectedInstructionsOnlyReport :
    (fetches (placed 0x00EE) .ret ∧ (placed 0x00EE).sp.val = 0) ∧
    ((fetches (placed16 0xE39E) (.skp 3) ∨ fetches (placed16 0xE39E) (.sknp 3)) ∧
      16 ≤ (reg (placed16 0xE39E) 3).toNat) ∧
    ((fetches (placed16 0xE3A1) (.skp 3) ∨ fetches (placed16 0xE3A1) (.sknp 3)) ∧
      16 ≤ (reg (placed16 0xE3A1) 3).toNat) ∧
    (fetches (placed16 0xF329) (.ldF 3) ∧ 0x0F < (reg (placed16 0xF329) 3).toNat) ∧
    (fetches (placed16 0xF30A) (.ldVxK 3) ∧ ∃ t, step (placed16 0xF30A) = .next t) :=
  ⟨⟨⟨rfl, by decide, by decide⟩, rfl⟩, ⟨.inl ⟨rfl, by decide, by decide⟩, by decide⟩,
    ⟨.inr ⟨rfl, by decide, by decide⟩, by decide⟩, ⟨⟨rfl, by decide, by decide⟩, by decide⟩,
    ⟨rfl, by decide, by decide⟩, _, rfl⟩

theorem witness_LoadImmediateWritesTheByte : (0x6FFF : Word) &&& 0xF000 = 0x6000 := by decide

theorem witness_CopyTakesTheSourceRegister : (0x8FF0 : Word) &&& 0xF00F = 0x8000 := by decide

/-- The clauses of AddSetsCarry, SubtractSetsNoBorrow and ShiftsByOneSetTheBitShiftedOut on the flag and on
the other registers; those of the statements with `sameRegsBut` need a register but the destination. -/
theorem witness_flagAndFrameClauses :
    (14 : Reg) ≠ 15 ∧ (0 : Reg) ≠ 14 ∧ (0 : Reg) ≠ 15 := by decide

theorem witness_LoadIndexTakesTheAddress : (0xAFFF : Word) &&& 0xF000 = 0xA000 := by decide

theorem witness_GlyphLookupPointsAtTheDigit :
    (reg (withRegs [(4, 0x0F)]) 4).toNat ≤ 0x0F ∧ 0x0F < (reg (withRegs [(4, 0x10)]) 4).toNat := by decide

theorem witness_DecimalDigitsAreStored :
    (indexed 0xFFD).I.toNat + 2 ≤ 0xFFF ∧ 0xFFC < base (indexed 0xFFD) ∧ base (indexed 0xFFD) + 3 ≤ 0x1000 := by
  decide

theorem witness_RangeStoreWritesV0ToVx :
    (indexed 0xFFF).I.toNat + (0 : Reg).val ≤ 0xFFF ∧ (indexed 0xFF0).I.toNat + (15 : Reg).val ≤ 0xFFF := by
  decide

theorem witness_RangeLoadFillsV0ToVx :
    (indexed 0xFF1).I.toNat + (14 : Reg).val ≤ 0xFFF ∧ (14 : Reg).val ≤ (14 : Reg).val ∧
    (14 : Reg).val < (15 : Reg).val := by decide

theorem witness_RangeLoadUndoesRangeStore :
    ∃ t u : State, exec (.storeRange 3) (indexed 0x300) = .next t ∧ u.mem = t.mem ∧ u.I = (indexed 0x300).I :=
  ⟨_, { State.reset with mem := storedAtI (indexed 0x300) [0, 0, 0, 0], I := 0x300 }, rfl, rfl, rfl⟩

theorem witness_TimerRegistersAreReadAndWritten :
    (0xFF07 : Word) &&& 0xF0FF = 0xF007 ∧ (0xFF15 : Word) &&& 0xF0FF = 0xF015 ∧
    (0xFF18 : Word) &&& 0xF0FF = 0xF018 := by decide

theorem witness_KeyWaitTakesTheLowestKey_down :
    (0xFF0A : Word) &&& 0xF0FF = 0xF00A ∧ keyDown (setKey State.reset 15 true) 15 = true ∧
    ∀ j : Fin 16, j < 15 → keyDown (setKey State.reset 15 true) j = false := by decide

theorem witness_KeyWaitTakesTheLowestKey_up :
    fetches (placed 0xF60A) (.ldVxK 6) ∧ ∀ k : Fin 16, keyDown (placed 0xF60A) k = false :=
  ⟨⟨rfl, by decide, by decide⟩, by decide⟩

theorem witness_RandomByteIsMasked : (0x0F : Byte).getLsbD 7 = false := by decide

theorem witness_DrawXorsTheSprite :
    ((0 : Fin 16).val = 0 ∨ (indexed 0xFFFF).I.toNat + (0 : Fin 16).val - 1 ≤ 0xFFF) ∧
    ((15 : Fin 16).val = 0 ∨ (indexed 0xFF1).I.toNat + (15 : Fin 16).val - 1 ≤ 0xFFF) := by decide

theorem witness_DrawingTwiceRestoresTheDisplay :
    (0 : Reg) ≠ 15 ∧ (14 : Reg) ≠ 15 ∧ ∃ t, exec (.drw 0 14 5) (indexed 0x50) = .next t :=
  ⟨by decide, by decide, _, rfl⟩

theorem witness_UnmappedWordOnlyAdvancesPc :
    (placed 0xF130).faultMark = none ∧ (placed 0xF130).pc.toNat ≤ 0xFFE ∧
    unmapped (wordAtPc (placed 0xF130)) = true := by decide

theorem witness_ResetReplacesTheWholeState : (0x04F < 0x050 ∨ 0x0A0 ≤ 0x04F) ∧ (0x0A0 < 0x050 ∨ 0x0A0 ≤ 0x0A0) := by
  decide

theorem witness_ImageIsLoadedOrRejectedWhole :
    State.reset.faultMark = none ∧ (List.replicate 3584 (0xAB : Byte)).length ≤ 3584 ∧
    3584 < (List.replicate 3585 (0xAB : Byte)).length := by
  rw [List.length_replicate, List.length_replicate]
  decide

theorem witness_TickCountsBothTimersDown : ({ State.reset with ST := 1 } : State).faultMark = none := rfl

theorem witness_TicksStopTheTimersAtZero : ({ State.reset with DT := 255 } : State).faultMark = none := rfl

theorem witness_KeyWriteSetsOneKey :
    State.reset.faultMark = none ∧ 1 < 2 ∧ (15 < 16 ∨ 1 < 0) ∧ (15 < 0 ∨ 1 < 2) := by decide

theorem witness_DrawFlagIsClearedOnlyByItsEvents :
    State.reset.faultMark = none ∧ (∃ t, exec .cls State.reset = .next t) ∧
    (∃ t, exec (.drw 0 0 0) (indexed 0xFFFF) = .next t) ∧
    (deliver { State.reset with drawFlag := true } .drawFlagClear).drawFlag = false ∧
    (deliver { State.reset with drawFlag := true } .reset).drawFlag = false :=
  ⟨rfl, ⟨_, rfl⟩, ⟨_, rfl⟩, rfl, rfl⟩

theorem witness_ObserveShowsThePixels : State.reset.faultMark = none ∧ 31 < 32 ∧ 63 < 64 := by decide

theorem witness_FaultMarkStaysUntilReset :
    step { State.reset with pc := 0xFFF } = .fault (.addressFault 0x1000) ∧
    ({ State.reset with faultMark := some 0x1000 } : State).faultMark = some 0x1000 ∧
    ∀ e ∈ [Event.cycle, .tick60, .keyWrite 16 2, .loadImage []], e ≠ .reset :=
  ⟨rfl, rfl, by decide⟩

theorem witness_CollaboratorsTouchOnlyTheirOwn :
    Event.loadImage [0xAB] ≠ .cycle ∧ Event.loadImage [0xAB] ≠ .reset ∧
    (∃ t, event (.loadImage [0xAB]) State.reset = .next t) ∧
    (∀ bytes, Event.tick60 ≠ .loadImage bytes) :=
  ⟨by decide, by decide, ⟨_, rfl⟩, fun _ h => by cases h⟩

theorem witness_EndedRunStaysEnded : runEnded (placed 0x1200) = true := by decide

end Sys2Proof.Tests
end

/-! PROOFS. The state after every instruction as one table per field, tied to `exec` once; then the frames,
the invariant, what the program cannot see, and Reset. -/

namespace Sys2Proof.Machine

/-! ## The state after an instruction, field by field

Each table below is one column: what one field holds after an instruction that completes. `exec_eq_accessing`
ties the tables to `exec`; frames, the invariant and the independence statements are then read off them. -/

/-- The byte an instruction writes to `V[z]`, `none` where it leaves the register alone (R22, R23). -/
def writtenByte (i : Instr) (s : State) (z : Reg) : Option Byte :=
  match i with
  | .ldImm x kk => if z = x then some kk else none
  | .addImm x kk => if z = x then some (reg s x + kk) else none
  | .ldReg x y => if z = x then some (reg s y) else none
  | .orReg x y => if z = x then some (reg s x ||| reg s y) else none
  | .andReg x y => if z = x then some (reg s x &&& reg s y) else none
  | .xorReg x y => if z = x then some (reg s x ^^^ reg s y) else none
  | .addReg x y => if z = x then some (reg s x + reg s y)
      else if z = regVF then some (carryFlag (reg s x) (reg s y)) else none
  | .subReg x y => if z = x then some (reg s x - reg s y)
      else if z = regVF then some (noBorrowFlag (reg s x) (reg s y)) else none
  | .subnReg x y => if z = x then some (reg s y - reg s x)
      else if z = regVF then some (noBorrowFlag (reg s y) (reg s x)) else none
  | .shr x _ => if z = x then some (reg s x >>> 1)
      else if z = regVF then some (shiftRightFlag (reg s x)) else none
  | .shl x _ => if z = x then some (reg s x <<< 1)
      else if z = regVF then some (shiftLeftFlag (reg s x)) else none
  | .rnd x kk => if z = x then some (maskedRandom (nextRandom s) kk) else none
  | .drw x y n => if z = regVF then some (collisionFlag (drawing x y n s).hit) else none
  | .ldVxDt x => if z = x then some s.DT else none
  | .ldVxK x => if z = x then (lowestKeyDown s).map (BitVec.ofNat 8) else none
  | .loadRange x => if z.val ≤ x.val then some (s.mem.read (base s + z.val)) else none
  | _ => none

/-- `V[z]` after an instruction. -/
def regAfter (i : Instr) (s : State) (z : Reg) : Byte := (writtenByte i s z).getD (reg s z)

/-- Memory after an instruction (R50). -/
def memAfter (i : Instr) (s : State) : Memory :=
  match i with
  | .ldB x => storedAtI s (decimalDigits (reg s x))
  | .storeRange x => storedAtI s (regRange s x)
  | _ => s.mem

/-- `I` after an instruction (R28). -/
def indexAfter (i : Instr) (s : State) : Word :=
  match i with
  | .ldI nnn => zext16OfAddr nnn
  | .addI x => s.I + zext16OfByte (reg s x)
  | .ldF x => if (reg s x).toNat ≤ 0x0F then glyphAddress (reg s x) else s.I
  | .storeRange x | .loadRange x => s.I + advanceOf rangeAdvance x
  | _ => s.I

/-- The stack after an instruction; a push on a full stack is out of bounds and writes nothing (R31). -/
def stackAfter (i : Instr) (s : State) : Vector Word 16 :=
  match i with
  | .call _ => s.stack.setIfInBounds s.sp.val s.pc
  | _ => s.stack

/-- `sp` after an instruction (R32). -/
def spAfter (i : Instr) (s : State) : Fin 17 :=
  match i with
  | .call _ => ⟨min (s.sp.val + 1) 16, by omega⟩
  | .ret => ⟨s.sp.val - 1, by omega⟩
  | _ => s.sp

/-- `DT` after an instruction (R33). -/
def delayAfter (i : Instr) (s : State) : Byte :=
  match i with
  | .ldDtVx x => reg s x
  | _ => s.DT

/-- `ST` after an instruction (R33). -/
def soundAfter (i : Instr) (s : State) : Byte :=
  match i with
  | .ldStVx x => reg s x
  | _ => s.ST

/-- The display after an instruction (R35). -/
def displayAfter (i : Instr) (s : State) : Display :=
  match i with
  | .cls => clearedDisplay
  | .drw x y n => (drawing x y n s).disp
  | _ => s.disp

/-- `draw_flag` after an instruction (R36). -/
def drawFlagAfter (i : Instr) (s : State) : Bool :=
  match i with
  | .cls | .drw _ _ _ => true
  | _ => s.drawFlag

/-- The draw counter after an instruction (R37). -/
def drawsAfter (i : Instr) (s : State) : Nat :=
  match i with
  | .rnd _ _ => s.draws + 1
  | _ => s.draws

/-- The report output after an instruction: what R200 says is due, or what it was. -/
def reportAfter (i : Instr) (s : State) : Report :=
  if reportDue i s = .none then s.reportOut else reportDue i s

/-- The whole state after an instruction fetched from `a` that completes; `pc` is the table of R30. -/
def postState (i : Instr) (a : Word) (s : State) : State where
  mem := memAfter i s
  V := Vector.ofFn (regAfter i s)
  I := indexAfter i s
  pc := pcAfter i a s
  stack := stackAfter i s
  sp := spAfter i s
  DT := delayAfter i s
  ST := soundAfter i s
  key := s.key
  disp := displayAfter i s
  drawFlag := drawFlagAfter i s
  draws := drawsAfter i s
  reportOut := reportAfter i s
  soundCueOut := s.soundCueOut
  faultMark := s.faultMark

@[simp] theorem reg_postState (i : Instr) (a : Word) (s : State) (z : Reg) :
    reg (postState i a s) z = regAfter i s z := by
  simp [reg, postState]

/-- Two states are the same when they agree field by field, the registers compared one by one. -/
theorem State.ext_reg {s t : State} (mem : s.mem = t.mem := by rfl)
    (V : ∀ z, reg s z = reg t z := by exact fun _ => rfl) (I : s.I = t.I := by rfl)
    (pc : s.pc = t.pc := by rfl) (stack : s.stack = t.stack := by rfl) (sp : s.sp = t.sp := by rfl)
    (DT : s.DT = t.DT := by rfl) (ST : s.ST = t.ST := by rfl) (key : s.key = t.key := by rfl)
    (disp : s.disp = t.disp := by rfl) (drawFlag : s.drawFlag = t.drawFlag := by rfl)
    (draws : s.draws = t.draws := by rfl) (reportOut : s.reportOut = t.reportOut := by rfl)
    (soundCueOut : s.soundCueOut = t.soundCueOut := by rfl)
    (faultMark : s.faultMark = t.faultMark := by rfl) : s = t := by
  have hV := V_ext V
  cases s
  cases t
  simp only at *
  subst_vars
  rfl

/-- A completed instruction ended in `t` when every field of `t` is the one the tables give. -/
theorem next_eq_postState {i : Instr} {a : Word} {s t : State}
    (pc : t.pc = pcAfter i a s) (V : ∀ z, reg t z = regAfter i s z := by exact fun _ => rfl)
    (mem : t.mem = memAfter i s := by rfl) (I : t.I = indexAfter i s := by rfl)
    (stack : t.stack = stackAfter i s := by rfl) (sp : t.sp = spAfter i s := by rfl)
    (DT : t.DT = delayAfter i s := by rfl) (ST : t.ST = soundAfter i s := by rfl)
    (key : t.key = s.key := by rfl) (disp : t.disp = displayAfter i s := by rfl)
    (drawFlag : t.drawFlag = drawFlagAfter i s := by rfl)
    (draws : t.draws = drawsAfter i s := by rfl)
    (reportOut : t.reportOut = reportAfter i s := by rfl)
    (soundCueOut : t.soundCueOut = s.soundCueOut := by rfl)
    (faultMark : t.faultMark = s.faultMark := by rfl) :
    (.next t : Result) = .next (postState i a s) :=
  congrArg _ <| State.ext_reg mem (fun z => (V z).trans (reg_postState i a s z).symm) I pc stack sp DT ST
    key disp drawFlag draws reportOut soundCueOut faultMark

/-- `V[z]` after a write to `x`, in the form of `regAfter`. -/
theorem reg_setReg_eq_getD (s : State) (x : Reg) (b : Byte) (z : Reg) :
    reg (setReg s x b) z = (if z = x then some b else none).getD (reg s z) := by
  rw [reg_setReg]; split <;> rfl

/-- `V[z]` after a flag and a result write, in the form of `regAfter`. -/
theorem reg_setFlagAndResult_eq_getD (s : State) (x : Reg) (flag result : Byte) (z : Reg) :
    reg (setFlagAndResult vfOrder s x flag result) z =
      (if z = x then some result else if z = regVF then some flag else none).getD (reg s z) := by
  rw [reg_setFlagAndResult]
  split
  · rfl
  · split <;> rfl

/-- A condition on the key a number names holds at some key exactly when the number names one and the
condition holds there. -/
theorem exists_key_iff (n : Nat) (p : Fin 16 → Prop) :
    (∃ k : Fin 16, n = k.val ∧ p k) ↔ ∃ h : n < 16, p ⟨n, h⟩ := by
  constructor
  · rintro ⟨k, rfl, hk⟩
    exact ⟨k.isLt, hk⟩
  · rintro ⟨h, hn⟩
    exact ⟨⟨n, h⟩, rfl, hn⟩

theorem skipIf_eq_setPc (c : Bool) (s : State) : skipIf c s = setPc s (skipIf c s).pc := by
  rw [skipIf_eq]; rfl

/-- A skip taken after the fetch from `a` lands on the entry of R30 for its condition. -/
theorem skipIf_pc_of_advanced {c : Bool} {p : Prop} [Decidable p] {a : Word} {s : State}
    (h : s.pc = a + 2) (hc : c = true ↔ p) : (skipIf c s).pc = if p then a + 4 else a + 2 := by
  rw [skipIf_pc, h, BitVec.add_assoc]
  exact ite_congr (propext hc) (fun _ => rfl) fun _ => rfl

/-- As `skipIf_pc_of_advanced`, for an entry whose condition is the one not to skip on. -/
theorem skipIf_pc_of_advanced_not {c : Bool} {p : Prop} [Decidable p] {a : Word} {s : State}
    (h : s.pc = a + 2) (hc : c = true ↔ ¬ p) : (skipIf c s).pc = if p then a + 2 else a + 4 := by
  rw [skipIf_pc_of_advanced h hc, ite_not]

/-- With nothing due the report output stays. -/
theorem reportAfter_of_none {i : Instr} {s : State} (hdue : reportDue i s = .none) :
    s.reportOut = reportAfter i s :=
  (if_pos hdue).symm

/-- A report that is due is the report output. -/
theorem reportAfter_of_due {i : Instr} {s : State} {c : Report} (hdue : reportDue i s = c)
    (hc : c ≠ .none) : c = reportAfter i s := by
  subst hdue
  exact (if_neg hc).symm

theorem exec_call_eq_postState (nnn : Addr12) {a : Word} {s : State} (h : s.pc = a + 2) :
    exec (.call nnn) s = .next (postState (.call nnn) a s) := by
  rw [exec_call_eq]
  by_cases hsp : s.sp.val < 16
  · have hdue : reportDue (.call nnn) s = .none := if_neg (by omega)
    rw [dif_pos hsp]
    refine next_eq_postState (if_pos hsp).symm (stack := ?_) (sp := Fin.ext ?_)
      (reportOut := reportAfter_of_none hdue)
    · exact Vector.ext fun k hk => by
        simp [stackAfter, Vector.getElem_set, Vector.getElem_setIfInBounds]
    · simp only [setPc_sp, setPushed_sp, spAfter]
      omega
  · have hdue : reportDue (.call nnn) s = .stackOverflow := if_pos (by omega)
    rw [dif_neg hsp]
    refine next_eq_postState (h.trans (if_neg hsp).symm) (stack := ?_) (sp := Fin.ext ?_)
      (reportOut := reportAfter_of_due hdue nofun)
    · exact Vector.ext fun k hk => (Vector.getElem_setIfInBounds_ne hk (by omega)).symm
    · simp only [setReport_sp, spAfter]
      omega

theorem exec_ret_eq_postState {a : Word} {s : State} (h : s.pc = a + 2) :
    exec .ret s = .next (postState .ret a s) := by
  rw [exec_ret_eq]
  by_cases hsp : 0 < s.sp.val
  · have hdue : reportDue .ret s = .none := if_neg (by omega)
    rw [dif_pos hsp]
    refine next_eq_postState (pc := ?_) (reportOut := reportAfter_of_none hdue)
    rw [pcAfter, dif_pos hsp, setPc_pc]
  · have hdue : reportDue .ret s = .stackUnderflow := if_pos (by omega)
    rw [dif_neg hsp]
    refine next_eq_postState (pc := ?_) (sp := Fin.ext ?_)
      (reportOut := reportAfter_of_due hdue nofun)
    · rw [pcAfter, dif_neg hsp, setReport_pc, h]
    · simp only [setReport_sp, spAfter]
      omega

/-- SKP and SKNP at once: `c` is the condition on the key, and an instruction whose tables change only `pc`
and the report, as R30 and R200 say of these two, skips on it or reports (R203). -/
theorem keySkip_eq_postState {i : Instr} {x : Reg} {c : Fin 16 → Bool} {a : Word} {s : State}
    (h : s.pc = a + 2)
    (hrest : postState i a s = { s with pc := pcAfter i a s, reportOut := reportAfter i s })
    (hpc : pcAfter i a s =
      if ∃ k : Fin 16, (reg s x).toNat = k.val ∧ c k = true then a + 4 else a + 2)
    (hdue : reportDue i s = if 16 ≤ (reg s x).toNat then .invalidKeyIndex else .none) :
    (if hk : (reg s x).toNat < 16 then .next (skipIf (c ⟨(reg s x).toNat, hk⟩) s)
      else .next (setReport s .invalidKeyIndex) : Result) = .next (postState i a s) := by
  rw [hrest, hpc]
  by_cases hk : (reg s x).toNat < 16
  · rw [if_neg (by omega)] at hdue
    have hc : c ⟨(reg s x).toNat, hk⟩ = true ↔
        ∃ k : Fin 16, (reg s x).toNat = k.val ∧ c k = true := by
      simp [exists_key_iff, hk]
    rw [dif_pos hk, skipIf_eq_setPc, skipIf_pc_of_advanced h hc, ← reportAfter_of_none hdue]
    rfl
  · rw [if_pos (by omega)] at hdue
    have hc : ¬ ∃ k : Fin 16, (reg s x).toNat = k.val ∧ c k = true := by
      simp [exists_key_iff, hk]
    rw [dif_neg hk, if_neg hc, ← h, ← reportAfter_of_due hdue nofun]
    rfl

theorem exec_skp_eq_postState (x : Reg) {a : Word} {s : State} (h : s.pc = a + 2) :
    exec (.skp x) s = .next (postState (.skp x) a s) :=
  (exec_skp_eq x s).trans (keySkip_eq_postState h (State.ext_reg (V := reg_postState _ a s)) rfl rfl)

theorem exec_sknp_eq_postState (x : Reg) {a : Word} {s : State} (h : s.pc = a + 2) :
    exec (.sknp x) s = .next (postState (.sknp x) a s) := by
  rw [exec_sknp_eq]
  refine keySkip_eq_postState (c := fun k => !keyDown s k) h
    (State.ext_reg (V := reg_postState _ a s)) ?_ rfl
  simp only [pcAfter, Bool.not_eq_true']

theorem exec_ldVxK_eq_postState (x : Reg) {a : Word} {s : State} (h : s.pc = a + 2) :
    exec (.ldVxK x) s = .next (postState (.ldVxK x) a s) := by
  rw [exec, execLdVxK]
  cases hk : lowestKeyDown s with
  | some k =>
    obtain ⟨hlt, hd, -⟩ := (lowestKeyDown_eq_some s k).mp hk
    have hdown : ∃ k : Fin 16, keyDown s k = true := ⟨⟨k, hlt⟩, hd⟩
    refine next_eq_postState (h.trans (if_pos hdown).symm) (V := fun z => ?_)
    rw [reg_setReg_eq_getD]
    simp [regAfter, writtenByte, hk]
  | none =>
    have hup : ¬ ∃ k : Fin 16, keyDown s k = true := by
      simpa using (lowestKeyDown_eq_none s).mp hk
    refine next_eq_postState (pc := ?_) (V := fun z => ?_)
    · rw [pcAfter, if_neg hup, rewind_pc, h, BitVec.add_sub_cancel]
    · simp [regAfter, writtenByte, hk]

theorem exec_ldF_eq_postState (x : Reg) {a : Word} {s : State} (h : s.pc = a + 2) :
    exec (.ldF x) s = .next (postState (.ldF x) a s) := by
  rw [exec_ldF_eq]
  by_cases hd : (reg s x).toNat ≤ 0x0F
  · have hdue : reportDue (.ldF x) s = .none := if_neg (by omega)
    rw [if_pos hd]
    exact next_eq_postState h (I := (if_pos hd).symm) (reportOut := reportAfter_of_none hdue)
  · have hdue : reportDue (.ldF x) s = .invalidGlyphDigit := if_pos (by omega)
    rw [if_neg hd]
    exact next_eq_postState h (I := (if_neg hd).symm)
      (reportOut := reportAfter_of_due hdue nofun)

theorem next_loadRange_eq_postState (x : Reg) {a : Word} {s : State} (h : s.pc = a + 2) :
    (.next (setI (setRegs s (loadRegs s.V 0 (bytesAtI s (x.val + 1)))) (s.I + advanceOf rangeAdvance x))
      : Result) = .next (postState (.loadRange x) a s) := by
  refine next_eq_postState h (V := fun z => ?_)
  rw [reg_setI, reg_setRegs, bytesAtI, getElem_loadRegs_bytes, regAfter, writtenByte]
  split <;> rfl

/-- Every instruction checks the bytes it accesses from `I` on and then ends in the state of the tables. -/
theorem exec_eq_accessing (i : Instr) {a : Word} {s : State} (h : s.pc = a + 2) :
    exec i s = accessing (base s) (accessCount i) (.next (postState i a s)) := by
  cases i with
  | cls => exact next_eq_postState h
  | ret => exact exec_ret_eq_postState h
  | jp nnn => exact next_eq_postState rfl
  | call nnn => exact exec_call_eq_postState nnn h
  | seImm x kk =>
    exact (congrArg _ (skipIf_eq_setPc _ s)).trans (next_eq_postState (skipIf_pc_of_advanced h beq_iff_eq))
  | sneImm x kk =>
    exact (congrArg _ (skipIf_eq_setPc _ s)).trans (next_eq_postState (skipIf_pc_of_advanced_not h bne_iff_ne))
  | seReg x y =>
    exact (congrArg _ (skipIf_eq_setPc _ s)).trans (next_eq_postState (skipIf_pc_of_advanced h beq_iff_eq))
  | sneReg x y =>
    exact (congrArg _ (skipIf_eq_setPc _ s)).trans (next_eq_postState (skipIf_pc_of_advanced_not h bne_iff_ne))
  | ldImm x kk => exact next_eq_postState h (reg_setReg_eq_getD s x _)
  | addImm x kk => exact next_eq_postState h (reg_setReg_eq_getD s x _)
  | ldReg x y => exact next_eq_postState h (reg_setReg_eq_getD s x _)
  | orReg x y => exact next_eq_postState h (reg_setReg_eq_getD s x _)
  | andReg x y => exact next_eq_postState h (reg_setReg_eq_getD s x _)
  | xorReg x y => exact next_eq_postState h (reg_setReg_eq_getD s x _)
  | addReg x y => exact next_eq_postState h (reg_setFlagAndResult_eq_getD s x _ _)
  | subReg x y => exact next_eq_postState h (reg_setFlagAndResult_eq_getD s x _ _)
  | shr x y => exact next_eq_postState h (reg_setFlagAndResult_eq_getD s x _ _)
  | subnReg x y => exact next_eq_postState h (reg_setFlagAndResult_eq_getD s x _ _)
  | shl x y => exact next_eq_postState h (reg_setFlagAndResult_eq_getD s x _ _)
  | ldI nnn => exact next_eq_postState h
  | jpV0 nnn => exact next_eq_postState rfl
  | rnd x kk => exact next_eq_postState h (reg_setReg_eq_getD s x _)
  | drw x y n => exact congrArg (accessing _ _) (next_eq_postState h (reg_setReg_eq_getD s regVF _))
  | skp x => exact exec_skp_eq_postState x h
  | sknp x => exact exec_sknp_eq_postState x h
  | ldVxDt x => exact next_eq_postState h (reg_setReg_eq_getD s x _)
  | ldVxK x => exact exec_ldVxK_eq_postState x h
  | ldDtVx x => exact next_eq_postState h
  | ldStVx x => exact next_eq_postState h
  | addI x => exact next_eq_postState h
  | ldF x => exact exec_ldF_eq_postState x h
  | ldB x => exact congrArg (accessing _ _) (next_eq_postState h)
  | storeRange x => exact congrArg (accessing _ _) (next_eq_postState h)
  | loadRange x => exact congrArg (accessing _ _) (next_loadRange_eq_postState x h)
  | nop w => exact next_eq_postState h

/-! ## Running an instruction -/

theorem pc_eq_sub_add (s : State) : s.pc = s.pc - 2 + 2 := (BitVec.sub_add_cancel s.pc 2).symm

/-- An instruction that completes had every byte it accesses in memory, and ended in the state of the
tables. -/
theorem exec_next {i : Instr} {a : Word} {s t : State} (ha : s.pc = a + 2) (h : exec i s = .next t) :
    (accessCount i = 0 ∨ base s + accessCount i ≤ Config.memSize) ∧ t = postState i a s := by
  rw [exec_eq_accessing i ha] at h
  obtain ⟨hacc, ht⟩ := accessing_next h
  exact ⟨hacc, (Host.Outcome.next.inj ht).symm⟩

theorem exec_next_eq_postState {i : Instr} {s t : State} (h : exec i s = .next t) :
    t = postState i (s.pc - 2) s :=
  (exec_next (pc_eq_sub_add s) h).2

/-! ## Frames -/

/-- The registers outside the "writes" column of R23 are not written. -/
theorem writtenByte_eq_none {i : Instr} {z : Reg} (s : State) (h : ¬ writesReg i z) :
    writtenByte i s z = none := by
  cases i with
  | ldImm x _ | addImm x _ | ldReg x _ | orReg x _ | andReg x _ | xorReg x _ | rnd x _ | ldVxDt x
  | ldVxK x | drw _ _ _ | loadRange x => exact if_neg h
  | addReg x _ | subReg x _ | subnReg x _ | shr x _ | shl x _ =>
    exact (if_neg fun hx => h (.inr hx)).trans (if_neg fun hf => h (.inl hf))
  | _ => rfl

/-- Settles O16: a register R23 does not list as written keeps its byte. -/
theorem registerFrameOfEveryInstruction : Obligations.RegisterFrameOfEveryInstruction := by
  intro i s t h z hz
  rw [exec_next_eq_postState h, reg_postState, regAfter, writtenByte_eq_none s hz]
  rfl

/-! Each field's table has an arm of its own only for the instructions R20 lists as writing it. -/

theorem indexAfter_ne {i : Instr} {s : State} (h : indexAfter i s ≠ s.I) :
    (∃ n, i = .ldI n) ∨ (∃ x, i = .addI x) ∨ (∃ x, i = .ldF x) ∨ (∃ x, i = .storeRange x) ∨
      (∃ x, i = .loadRange x) := by
  unfold indexAfter at h
  split at h
  · exact .inl ⟨_, rfl⟩
  · exact .inr (.inl ⟨_, rfl⟩)
  · exact .inr (.inr (.inl ⟨_, rfl⟩))
  · exact .inr (.inr (.inr (.inl ⟨_, rfl⟩)))
  · exact .inr (.inr (.inr (.inr ⟨_, rfl⟩)))
  · exact (h rfl).elim

theorem stackAfter_ne {i : Instr} {s : State} (h : stackAfter i s ≠ s.stack) : ∃ n, i = .call n := by
  unfold stackAfter at h
  split at h
  · exact ⟨_, rfl⟩
  · exact (h rfl).elim

theorem spAfter_ne {i : Instr} {s : State} (h : spAfter i s ≠ s.sp) :
    (∃ n, i = .call n) ∨ i = .ret := by
  unfold spAfter at h
  split at h
  · exact .inl ⟨_, rfl⟩
  · exact .inr rfl
  · exact (h rfl).elim

theorem delayAfter_ne {i : Instr} {s : State} (h : delayAfter i s ≠ s.DT) : ∃ x, i = .ldDtVx x := by
  unfold delayAfter at h
  split at h
  · exact ⟨_, rfl⟩
  · exact (h rfl).elim

theorem soundAfter_ne {i : Instr} {s : State} (h : soundAfter i s ≠ s.ST) : ∃ x, i = .ldStVx x := by
  unfold soundAfter at h
  split at h
  · exact ⟨_, rfl⟩
  · exact (h rfl).elim

theorem displayAfter_ne {i : Instr} {s : State} (h : displayAfter i s ≠ s.disp) :
    i = .cls ∨ ∃ x y n, i = .drw x y n := by
  unfold displayAfter at h
  split at h
  · exact .inl rfl
  · exact .inr ⟨_, _, _, rfl⟩
  · exact (h rfl).elim

theorem drawFlagAfter_ne {i : Instr} {s : State} (h : drawFlagAfter i s ≠ s.drawFlag) :
    i = .cls ∨ ∃ x y n, i = .drw x y n := by
  unfold drawFlagAfter at h
  split at h
  · exact .inl rfl
  · exact .inr ⟨_, _, _, rfl⟩
  · exact (h rfl).elim

theorem drawsAfter_ne {i : Instr} {s : State} (h : drawsAfter i s ≠ s.draws) :
    ∃ x kk, i = .rnd x kk := by
  unfold drawsAfter at h
  split at h
  · exact ⟨_, _, rfl⟩
  · exact (h rfl).elim

/-- Settles O17, field by field. -/
theorem stateFrameOfEveryInstruction : Obligations.StateFrameOfEveryInstruction := by
  intro i s t h
  obtain rfl := exec_next_eq_postState h
  exact ⟨⟨rfl, rfl, rfl⟩, indexAfter_ne, stackAfter_ne, spAfter_ne, delayAfter_ne, soundAfter_ne,
    Or.rec displayAfter_ne drawFlagAfter_ne, drawsAfter_ne⟩

/-- Settles O18: `pc` of the state after is the table of R30. -/
theorem pcAfterEachInstruction : Obligations.PcAfterEachInstruction := by
  intro i a s t ha h
  rw [(exec_next ha h).2]
  rfl

/-! ## The invariant -/

/-- A store inside memory keeps it canonical, and no other instruction changes it. -/
theorem memAfter_wf {i : Instr} {s : State}
    (hacc : accessCount i = 0 ∨ base s + accessCount i ≤ Config.memSize) (hs : s.mem.wf = true) :
    (memAfter i s).wf = true := by
  cases i with
  | ldB x => exact wf_storeBytes _ _ _ hs (.inl (hacc.resolve_left (Nat.succ_ne_zero _)))
  | storeRange x =>
    refine wf_storeBytes _ _ _ hs (.inl ?_)
    rw [length_regRange]
    exact hacc.resolve_left (Nat.succ_ne_zero _)
  | _ => exact hs

/-- What a CALL pushes is the advanced counter, so a bound on it and on the entries stays (R101). -/
theorem stackAfter_le {n : Nat} (i : Instr) {s : State} (hpc : s.pc.toNat ≤ n)
    (hs : ∀ k : Fin 16, (s.stack[k.val]).toNat ≤ n) (k : Fin 16) :
    ((stackAfter i s)[k.val]).toNat ≤ n := by
  cases i with
  | call nnn =>
    rw [stackAfter, Vector.getElem_setIfInBounds]
    split
    · exact hpc
    · exact hs k
  | _ => exact hs k

theorem toNat_ite_le {p : Prop} [Decidable p] {u v : Word} {n : Nat} (hu : u.toNat ≤ n)
    (hv : v.toNat ≤ n) : (if p then u else v).toNat ≤ n := by
  split <;> assumption

/-- No entry of the table of R30 is above 0x10FE, the farthest target of JP V0 (R103), for an instruction
fetched inside memory. -/
theorem pcAfter_le (i : Instr) {a : Word} {s : State} (ha : a.toNat ≤ 0xFFE)
    (hs : ∀ k : Fin 16, (s.stack[k.val]).toNat ≤ 0x1000) : (pcAfter i a s).toNat ≤ 0x10FE := by
  have hnext : (a + 2).toNat ≤ 0x10FE := by bv_omega
  have hskip : (a + 4).toNat ≤ 0x10FE := by bv_omega
  have haddr (nnn : Addr12) : (zext16OfAddr nnn).toNat ≤ 0xFFF := by
    rw [BitVec.toNat_setWidth]; omega
  cases i with
  | jp nnn => exact Nat.le_trans (haddr nnn) (by decide)
  | jpV0 nnn =>
    have hbyte : (zext16OfByte (reg s 0)).toNat ≤ 0xFF := by
      rw [BitVec.toNat_setWidth]; omega
    have := haddr nnn
    rw [pcAfter, BitVec.toNat_add]
    omega
  | call nnn => exact toNat_ite_le (Nat.le_trans (haddr nnn) (by decide)) hnext
  | ret =>
    rw [pcAfter]
    split
    · exact Nat.le_trans (hs ⟨s.sp.val - 1, by omega⟩) (by decide)
    · exact hnext
  | seImm _ _ | seReg _ _ | skp _ | sknp _ => exact toNat_ite_le hskip hnext
  | sneImm _ _ | sneReg _ _ => exact toNat_ite_le hnext hskip
  | ldVxK _ => exact toNat_ite_le hnext (Nat.le_trans ha (by decide))
  | _ => exact hnext

/-- Settles O12: the fetch advances `pc` to at most 0x1000, and the tables keep each clause. -/
theorem stepKeepsTheInvariant : Obligations.StepKeepsTheInvariant := by
  intro s t ⟨hmem, _, hstack⟩ h
  obtain ⟨-, hpc, hexec⟩ := step_next h
  obtain ⟨hacc, rfl⟩ := exec_next (beginCycle_pc s) hexec
  have hadv : (beginCycle s).pc.toNat ≤ 0x1000 := by rw [beginCycle_pc]; bv_omega
  exact ⟨memAfter_wf hacc hmem, pcAfter_le _ hpc hstack, stackAfter_le _ hadv hstack⟩

/-- Settles O13: memory at reset lists nothing, `pc` is 0x200, the stack is all zero. -/
theorem resetMeetsTheInvariant : Obligations.ResetMeetsTheInvariant :=
  ⟨reset_mem_wf, by decide, by decide⟩

/-- The invariant speaks of memory, `pc` and the stack only. -/
theorem Inv.of_eq {s t : State} (hs : Inv s) (mem : t.mem = s.mem := by rfl)
    (pc : t.pc = s.pc := by rfl) (stack : t.stack = s.stack := by rfl) : Inv t :=
  ⟨mem ▸ hs.memWf, pc ▸ hs.pcBound, stack ▸ hs.stackBound⟩

/-- An image that is accepted ends inside memory (R243). -/
theorem loadImage_keeps_inv (bytes : List Byte) {s : State} (hs : Inv s) : Inv (loadImage bytes s) := by
  rw [loadImage]
  split
  · exact hs.of_eq
  · refine ⟨wf_storeBytes _ _ _ hs.memWf (.inl ?_), hs.pcBound, hs.stackBound⟩
    simp only [Config.entry, Config.memSize, Config.imageMax] at *
    omega

theorem keyWrite_keeps_inv {k b : Nat} {s t : State} (hs : Inv s) (h : keyWrite k b s = .next t) :
    Inv t := by
  rw [keyWrite] at h
  split at h
  · cases h
    exact hs.of_eq
  · cases h

theorem resetEvent_meets_inv (s : State) : Inv (resetEvent s) := resetMeetsTheInvariant.of_eq

theorem eventEffect_keeps_inv {e : Event} {s t : State} (hs : Inv s) (h : eventEffect e s = .next t) :
    Inv t := by
  cases e with
  | reset => cases h; exact resetEvent_meets_inv s
  | loadImage bytes => cases h; exact loadImage_keeps_inv bytes hs
  | cycle => exact stepKeepsTheInvariant s t hs h
  | tick60 => cases h; exact hs.of_eq
  | keyWrite k b => exact keyWrite_keeps_inv hs h
  | drawFlagClear => cases h; exact hs.of_eq
  | observe => cases h; exact hs

theorem event_keeps_inv {e : Event} {s t : State} (hs : Inv s) (h : event e s = .next t) : Inv t := by
  cases hf : s.faultMark with
  | none => exact eventEffect_keeps_inv hs (event_eq_effect hf e ▸ h)
  | some a =>
    by_cases he : e = .reset
    · subst he
      rw [event_reset] at h
      cases h
      exact resetEvent_meets_inv s
    · rw [event_of_faulted hf he] at h
      cases h

theorem deliver_keeps_inv (s : State) (e : Event) (hs : Inv s) : Inv (deliver s e) := by
  cases h : event e s with
  | next t => rw [deliver_of_next h]; exact event_keeps_inv hs h
  | fault f =>
    obtain ⟨a⟩ := f
    rw [deliver_of_fault h]
    exact hs.of_eq
  | refused r => rw [deliver_of_refused h]; exact hs

/-- Settles O14, by induction on the events from reset. -/
theorem everyReachableStateMeetsTheInvariant : Obligations.EveryReachableStateMeetsTheInvariant := by
  refine ⟨deliver_keeps_inv, fun s hs => ?_⟩
  induction hs with
  | reset => exact resetMeetsTheInvariant
  | event s e _ ih => exact deliver_keeps_inv s e ih

/-! ## What the program cannot see -/

/-- No table reads `ST`, `draw_flag` or an output into a field other than itself. -/
theorem postState_hideUnread (i : Instr) (a : Word) (s : State) :
    hideUnread (postState i a (hideUnread s)) = hideUnread (postState i a s) := by
  cases i <;> rfl

/-- An instruction takes two states that differ only in the unread fields to two such states, or faults
alike in both. -/
theorem exec_of_hideUnread_eq (i : Instr) {s s' : State} (h : hideUnread s = hideUnread s') :
    (∃ t t', exec i s = .next t ∧ exec i s' = .next t' ∧ hideUnread t = hideUnread t') ∨
    (∃ f, exec i s = .fault f ∧ exec i s' = .fault f) := by
  have hpc : s'.pc = s.pc := (congrArg State.pc h.symm :)
  have hbase : base s' = base s := (congrArg base h.symm :)
  rw [exec_eq_accessing i (pc_eq_sub_add s), exec_eq_accessing i (hpc.trans (pc_eq_sub_add s)), hbase,
    accessing_eq, accessing_eq]
  split
  · refine .inl ⟨_, _, rfl, rfl, ?_⟩
    rw [← postState_hideUnread, h, postState_hideUnread]
  · exact .inr ⟨_, rfl, rfl⟩

/-- Settles O20: the fetch reads only `pc`, memory and the mark, and the instruction fetched is
`exec_of_hideUnread_eq`. -/
theorem unreadStateDoesNotReachTheProgram : Obligations.UnreadStateDoesNotReachTheProgram := by
  intro s s' h
  have hmark : s'.faultMark = s.faultMark := (congrArg State.faultMark h.symm :)
  have hpc : s'.pc = s.pc := (congrArg State.pc h.symm :)
  have hword : wordAtPc s' = wordAtPc s := (congrArg wordAtPc h.symm :)
  have hbegin : hideUnread (beginCycle s) = hideUnread (beginCycle s') :=
    (congrArg (fun u => hideUnread (beginCycle u)) h :)
  rw [step_eq, step_eq, hmark, hpc, hword]
  cases s.faultMark with
  | some a => exact .inr ⟨_, rfl, rfl⟩
  | none =>
    by_cases hle : s.pc.toNat ≤ 0xFFE
    · simp only [if_pos hle]
      exact exec_of_hideUnread_eq _ hbegin
    · simp only [if_neg hle]
      exact .inr ⟨_, rfl, rfl⟩

/-! ## Registers an instruction does not read -/

/-- The drawing reads its two coordinate registers only. -/
theorem drawing_setReg {x y z : Reg} {s : State} {b : Byte} (n : Fin 16)
    (hx : reg (setReg s z b) x = reg s x) (hy : reg (setReg s z b) y = reg s y) :
    drawing x y n (setReg s z b) = drawing x y n s := by
  rw [drawing, hx, hy]
  rfl

theorem regRange_congr {s s' : State} {x : Reg}
    (h : ∀ z : Reg, z.val ≤ x.val → reg s' z = reg s z) : regRange s' x = regRange s x := by
  refine List.ext_getElem (by simp) fun k hk hk' => ?_
  rw [length_regRange] at hk
  have hkx : k ≤ x.val := by omega
  have := h ⟨k, by omega⟩ hkx
  rwa [← getElem_regRange s x ⟨k, by omega⟩ hkx, ← getElem_regRange s' x ⟨k, by omega⟩ hkx] at this

section Unread
variable {i : Instr} {z : Reg} (s : State) (b : Byte) (h : ¬ readsReg i z)
include h

theorem reg_setReg_of_reads {w : Reg} (hw : readsReg i w) : reg (setReg s z b) w = reg s w :=
  reg_setReg_other s b fun hwz => h (hwz ▸ hw)

/-- What is written depends on the registers read only. -/
theorem writtenByte_setReg (w : Reg) : writtenByte i (setReg s z b) w = writtenByte i s w := by
  have hr {v : Reg} (hv : readsReg i v) := reg_setReg_of_reads s b h hv
  cases i with
  | addImm x _ | shr x _ | shl x _ => simp only [writtenByte, hr (v := x) rfl]
  | ldReg _ y => simp only [writtenByte, hr (v := y) rfl]
  | orReg x y | andReg x y | xorReg x y | addReg x y | subReg x y | subnReg x y =>
    simp only [writtenByte, hr (v := x) (.inl rfl), hr (v := y) (.inr rfl)]
  | drw x y n => simp only [writtenByte, drawing_setReg n (hr (v := x) (.inl rfl)) (hr (v := y) (.inr rfl))]
  | _ => rfl

theorem memAfter_setReg : memAfter i (setReg s z b) = memAfter i s := by
  have hr {v : Reg} (hv : readsReg i v) := reg_setReg_of_reads s b h hv
  cases i with
  | ldB x =>
    simp only [memAfter, hr (v := x) rfl]
    rfl
  | storeRange x =>
    rw [memAfter, regRange_congr fun v hv => hr hv]
    rfl
  | _ => rfl

theorem indexAfter_setReg : indexAfter i (setReg s z b) = indexAfter i s := by
  have hr {v : Reg} (hv : readsReg i v) := reg_setReg_of_reads s b h hv
  cases i with
  | addI x | ldF x => simp only [indexAfter, hr (v := x) rfl, setReg_I]
  | _ => rfl

theorem pcAfter_setReg (a : Word) : pcAfter i a (setReg s z b) = pcAfter i a s := by
  have hr {v : Reg} (hv : readsReg i v) := reg_setReg_of_reads s b h hv
  cases i with
  | jpV0 _ => simp only [pcAfter, hr (v := 0) rfl]
  | seImm x _ | sneImm x _ => simp only [pcAfter, hr (v := x) rfl]
  | skp x | sknp x =>
    simp only [pcAfter, hr (v := x) rfl]
    rfl
  | seReg x y | sneReg x y => simp only [pcAfter, hr (v := x) (.inl rfl), hr (v := y) (.inr rfl)]
  | _ => rfl

theorem delayAfter_setReg : delayAfter i (setReg s z b) = delayAfter i s := by
  cases i with
  | ldDtVx x => exact reg_setReg_of_reads s b h rfl
  | _ => rfl

theorem soundAfter_setReg : soundAfter i (setReg s z b) = soundAfter i s := by
  cases i with
  | ldStVx x => exact reg_setReg_of_reads s b h rfl
  | _ => rfl

theorem displayAfter_setReg : displayAfter i (setReg s z b) = displayAfter i s := by
  have hr {v : Reg} (hv : readsReg i v) := reg_setReg_of_reads s b h hv
  cases i with
  | drw x y n =>
    simp only [displayAfter, drawing_setReg n (hr (v := x) (.inl rfl)) (hr (v := y) (.inr rfl))]
  | _ => rfl

theorem reportDue_setReg : reportDue i (setReg s z b) = reportDue i s := by
  have hr {v : Reg} (hv : readsReg i v) := reg_setReg_of_reads s b h hv
  cases i with
  | skp x | sknp x | ldF x => simp only [reportDue, hr (v := x) rfl]
  | _ => rfl

/-- Another byte in a register the instruction does not read is seen in that register alone. -/
theorem postState_setReg (a : Word) :
    postState i a (setReg s z b) = setReg (postState i a s) z (regAfter i (setReg s z b) z) := by
  refine State.ext_reg (memAfter_setReg s b h) (fun w => ?_) (indexAfter_setReg s b h)
    (pcAfter_setReg s b h a) (DT := delayAfter_setReg s b h) (ST := soundAfter_setReg s b h)
    (disp := displayAfter_setReg s b h) (reportOut := ?_)
  · rw [reg_setReg, reg_postState, reg_postState]
    by_cases hw : w = z
    · rw [if_pos hw, hw]
    · rw [if_neg hw, regAfter, writtenByte_setReg s b h, reg_setReg_other s b hw, regAfter]
  · change reportAfter i (setReg s z b) = reportAfter i s
    rw [reportAfter, reportDue_setReg s b h, reportAfter, setReg_reportOut]

end Unread

/-- Settles O21: both runs check the same addresses, and `postState_setReg` compares where they end. -/
theorem unreadRegistersDoNotMatter : Obligations.UnreadRegistersDoNotMatter := by
  intro i s t z b hz h
  obtain ⟨hacc, rfl⟩ := exec_next (pc_eq_sub_add s) h
  have hrun : exec i (setReg s z b) = .next (postState i (s.pc - 2) (setReg s z b)) := by
    rw [exec_eq_accessing i (pc_eq_sub_add (setReg s z b)), accessing_eq]
    exact if_pos hacc
  have hreg : regAfter i (setReg s z b) z = (writtenByte i s z).getD b := by
    rw [regAfter, writtenByte_setReg s b hz, reg_setReg_same]
  refine ⟨_, hrun, ?_, fun hw => ?_, ?_⟩
  · rw [reg_postState]
    exact postState_setReg s b hz _
  · rw [reg_postState, hreg, writtenByte_eq_none s hw]
    rfl
  · rw [reg_postState, hreg, reg_postState, regAfter]
    cases writtenByte i s z with
    | some v => exact .inl rfl
    | none => exact .inr rfl

/-! ## Reset -/

/-- The reset contents outside the glyph table (R39). -/
theorem resetByte_of_outside {a : Nat} (h : a < 0x050 ∨ 0x0A0 ≤ a) : resetByte a = 0 := by
  rw [resetByte]
  by_cases hlow : Config.glyphBase ≤ a
  · have hend : glyphTable.length ≤ a - Config.glyphBase := by
      change 80 ≤ a - 0x050
      change 0x050 ≤ a at hlow
      omega
    rw [if_pos hlow, List.getD_eq_getElem?_getD, List.getElem?_eq_none hend, Option.getD_none]
  · exact if_neg hlow

/-- The reset contents of the glyph table (R27, R39). -/
theorem resetByte_glyph (k : Nat) : resetByte (0x050 + k) = glyphTable.getD k 0 := by
  rw [resetByte, if_pos (Nat.le_add_right _ _), Nat.add_sub_cancel_left]

/-- Settles O51: memory reads as the reset contents, every other field is a literal of `State.reset`. -/
theorem resetReplacesTheWholeState : Obligations.ResetReplacesTheWholeState := by
  intro s
  refine ⟨_, event_reset s, fun k => resetByte_glyph k.val, fun a ha => resetByte_of_outside ha,
    fun z => ?_, rfl, rfl, fun k => ?_, rfl, rfl, rfl, fun k => ?_, pixel_clearedDisplay, rfl, rfl⟩
  · exact Vector.getElem_replicate z.isLt
  · exact Vector.getElem_replicate k.isLt
  · exact Vector.getElem_replicate k.isLt

end Sys2Proof.Machine

/-! PROOFS. Memory (spec/20_memory.md): when the fetch and the instructions fault, which bytes an instruction
can change, and how the fetch sees a stored byte. -/

namespace Sys2Proof.Machine

/-! ## Accesses above 0xFFF (R56) -/

/-- Settles O7: of the cases of `step_eq` it is the one without a mark and with `pc` above 0xFFE. -/
theorem fetchAboveMemoryFaults : Obligations.FetchAboveMemoryFaults := by
  intro s hmark hpc
  rw [step_eq, hmark]
  exact if_neg (Nat.not_le_of_gt hpc)

/-- The last of the `n` bytes from `a` on is above 0xFFF exactly when the address check fails. -/
theorem lastByte_gt_iff (a n : Nat) :
    (1 ≤ n ∧ 0xFFF < a + n - 1) ↔ ¬ (n = 0 ∨ a + n ≤ Config.memSize) := by
  rw [Config.memSize]
  omega

/-- Settles O11: every instruction is the check of its `accessCount` bytes from `I` on, then a next state. -/
theorem instructionsFaultExactlyAboveMemory : Obligations.InstructionsFaultExactlyAboveMemory := by
  intro i s
  rw [exec_eq_accessing i (pc_eq_sub_add s), accessing_eq]
  have hiff := lastByte_gt_iff (base s) (accessCount i)
  split
  next hlast => exact if_neg (hiff.mp hlast)
  next hlast => exact ⟨_, if_pos (Decidable.not_not.mp (mt hiff.mpr hlast))⟩

/-! ## What an instruction stores (R50) -/

/-- The two storing instructions store `storeCount` bytes from `I` on, and no other touches memory. -/
theorem read_memAfter_outside {i : Instr} {s : State} {a : Nat}
    (h : a < base s ∨ base s + storeCount i ≤ a) : (memAfter i s).read a = s.mem.read a := by
  cases i with
  | ldB x => exact read_storeBytes_outside _ _ _ a h
  | storeRange x => exact read_storeBytes_outside _ _ _ a (by rwa [length_regRange])
  | _ => rfl

/-- Settles O15: memory after an instruction is `memAfter`, and that is unchanged outside the stored run. -/
theorem memoryFrameOfEveryInstruction : Obligations.MemoryFrameOfEveryInstruction := by
  intro i s t h a ha
  rw [exec_next_eq_postState h]
  exact read_memAfter_outside ha

/-- After a range store the byte at `I + z` is `V[z]` (R144). -/
theorem read_storedAtI_regRange (s : State) {x z : Reg} (hz : z.val ≤ x.val) :
    (storedAtI s (regRange s x)).read (base s + z.val) = reg s z := by
  rw [storedAtI, read_storeBytes_inside _ _ _ _ (by rw [length_regRange]; omega)]
  exact getElem_regRange s x z hz

/-! ## What the fetch sees (R52, R60) -/

/-- Settles O8: the fetch is two byte reads, and a store is seen by the read at its address alone. -/
theorem fetchIsBigEndian : Obligations.FetchIsBigEndian := by
  refine ⟨fun s => fetchWord_of_le, fun s b hpc => ?_, fun s b hpc => ?_⟩
  · refine ⟨_, fetchWord_of_le hpc, ?_, ?_⟩
    · rw [highByte_wordOfBytes]
      exact Memory.read_write_same _ _ _
    · rw [lowByte_wordOfBytes]
      exact Memory.read_write_other _ _ (Nat.succ_ne_self _)
  · refine ⟨_, fetchWord_of_le hpc, ?_, ?_⟩
    · rw [lowByte_wordOfBytes]
      exact Memory.read_write_same _ _ _
    · rw [highByte_wordOfBytes]
      exact Memory.read_write_other _ _ (Nat.succ_ne_self _).symm

/-- Settles O9: the store was inside memory, so the fetch is too, and it reads bytes 0 and 1 of the range. -/
theorem storedWordIsFetchedNext : Obligations.StoredWordIsFetchedNext := by
  intro x s t hI hx h
  rw [exec_storeRange_eq] at h
  split at h
  next hfits =>
    cases h
    have hpc : s.pc.toNat ≤ 0xFFE := by rw [← hI]; omega
    have hbase : s.pc.toNat = base s := (congrArg BitVec.toNat hI.symm :)
    have hV0 := read_storedAtI_regRange s (x := x) (z := 0) (Nat.zero_le _)
    have hV1 := read_storedAtI_regRange s (x := x) (z := 1) hx
    rw [fetchWord_eq, setI_pc, setMem_pc, if_pos hpc, setI_mem, setMem_mem, hbase]
    exact congrArg Except.ok (congr (congrArg wordOfBytes hV0) hV1)
  next => cases h

end Sys2Proof.Machine

/-! PROOFS. The encoding (spec/30_encoding.md): the operand fields as numbers, which row of the opcode map
selects a word, and what the decoder answers for it. -/

namespace Sys2Proof

/-! ## Operand fields as numbers (R72) -/

theorem xField_val (w : Word) : (xField w).val = w.toNat / 256 % 16 := by
  change (w.extractLsb' 8 4).toNat = _
  rw [BitVec.extractLsb'_toNat, Nat.shiftRight_eq_div_pow]

theorem yField_val (w : Word) : (yField w).val = w.toNat / 16 % 16 := by
  change (w.extractLsb' 4 4).toNat = _
  rw [BitVec.extractLsb'_toNat, Nat.shiftRight_eq_div_pow]

theorem nnnField_toNat (w : Word) : (nnnField w).toNat = w.toNat % 4096 := by
  simp [nnnField, BitVec.extractLsb'_toNat]

/-- Settles O4, one field at a time. -/
theorem operandFieldsSitAtTheirBits : Obligations.OperandFieldsSitAtTheirBits := fun w =>
  ⟨xField_val w, yField_val w, nField_toNat w, kkField_toNat w, nnnField_toNat w, opField_toNat w⟩

/-- Settles O5: twelve literal words. -/
theorem wordsOfTheSpecDecode : Obligations.WordsOfTheSpecDecode := by
  unfold Obligations.WordsOfTheSpecDecode
  decide

/-! ## The rows of the opcode map (R79) -/

/-- The selector bits the dispatch on primary selector `op` reads: the low nibble in families 0, 8 and E,
the low byte in family F, none in the others (R75, R76). -/
def selectorMask (op : Nat) : Word :=
  if op = 0x0 ∨ op = 0x8 ∨ op = 0xE then 0xF00F else if op = 0xF then 0xF0FF else 0xF000

theorem opField_and_selectorMask (w : Word) (op : Nat) :
    opField (w &&& selectorMask op) = opField w := by
  unfold selectorMask
  split
  · rw [and_maskOpN, opField_formatXYN]
  · split
    · rw [and_maskOpKK, opField_formatXK]
    · rw [and_maskOp, opField_formatA]

/-- Each row's mask is the one its primary selector calls for, and its match is a mapped word. -/
theorem mask_and_match_of_row :
    ∀ row ∈ opcodeRows, row.1 = selectorMask (opField row.2).toNat ∧ unmapped row.2 = false := by
  have hall : opcodeRows.all
      (fun row => row.1 == selectorMask (opField row.2).toNat && !unmapped row.2) = true := by decide
  intro row hmem
  simpa using List.all_eq_true.mp hall row hmem

/-- The one row that can select a word: the word's own selector bits under their mask. -/
theorem row_eq_of_rowSelects {row : Word × Word} {w : Word} (hmem : row ∈ opcodeRows)
    (hsel : rowSelects row w = true) :
    row = (selectorMask (opField w).toNat, w &&& selectorMask (opField w).toNat) := by
  have hmatch : w &&& row.1 = row.2 := beq_iff_eq.mp hsel
  have hmask := (mask_and_match_of_row row hmem).1
  have hop : opField row.2 = opField w := by
    rw [← hmatch, hmask, opField_and_selectorMask]
  rw [hop] at hmask
  exact Prod.ext hmask (by rw [← hmask, hmatch])

/-- Whether a word is unmapped, read off its fields (R82). -/
theorem unmapped_iff (w : Word) :
    unmapped w = true ↔
      ((opField w).toNat = 0x0 ∧ (nField w).toNat ≠ 0x0 ∧ (nField w).toNat ≠ 0xE) ∨
      ((opField w).toNat = 0x8 ∧ 8 ≤ (nField w).toNat ∧ (nField w).toNat ≠ 0xE) ∨
      ((opField w).toNat = 0xE ∧ (nField w).toNat ≠ 0x1 ∧ (nField w).toNat ≠ 0xE) ∨
      ((opField w).toNat = 0xF ∧ (kkField w).toNat ∉ familyFSelectors) := by
  simp [unmapped, opField_toNat, nField_toNat, kkField_toNat, or_assoc, and_assoc]

/-- Only the selector bits decide whether a word is unmapped. -/
theorem unmapped_and_selectorMask (w : Word) :
    unmapped (w &&& selectorMask (opField w).toNat) = unmapped w := by
  rw [Bool.eq_iff_iff, unmapped_iff, unmapped_iff, opField_and_selectorMask]
  unfold selectorMask
  split
  next hN =>
    rw [and_maskOpN, nField_formatXYN]
    rcases hN with h | h | h <;> simp [h]
  next hN =>
    rw [not_or, not_or] at hN
    split
    next hF =>
      rw [and_maskOpKK, kkField_formatXK]
      simp [hF]
    next hF => simp [hN, hF]

theorem unmapped_eq_false_of_rowSelects {row : Word × Word} {w : Word} (hmem : row ∈ opcodeRows)
    (hsel : rowSelects row w = true) : unmapped w = false := by
  rw [row_eq_of_rowSelects hmem hsel] at hmem
  rw [← unmapped_and_selectorMask]
  exact (mask_and_match_of_row _ hmem).2

/-! ## What the decoder answers (R80) -/

/-- `i` is a right answer for `w`: the NOP of an unmapped word, or an instruction whose row is in the map and
selects the word. -/
def RightAnswer (w : Word) (i : Instr) : Prop :=
  (i = .nop w ∧ unmapped w = true) ∨ (rowOf i ∈ opcodeRows ∧ rowSelects (rowOf i) w = true)

theorem rightAnswer_op {w : Word} {i : Instr} {op : Nat} (hop : (opField w).toNat = op)
    (hrow : rowOf i = (0xF000, formatA (BitVec.ofNat 4 op) 0))
    (hmem : (0xF000, formatA (BitVec.ofNat 4 op) 0) ∈ opcodeRows) : RightAnswer w i := by
  refine .inr ⟨hrow ▸ hmem, ?_⟩
  subst hop
  rw [hrow, rowSelects, and_maskOp]
  simp

theorem rightAnswer_opN {w : Word} {i : Instr} {op n : Nat} (hop : (opField w).toNat = op)
    (hn : (nField w).toNat = n)
    (hrow : rowOf i = (0xF00F, formatXYN (BitVec.ofNat 4 op) 0 0 (BitVec.ofNat 4 n)))
    (hmem : (0xF00F, formatXYN (BitVec.ofNat 4 op) 0 0 (BitVec.ofNat 4 n)) ∈ opcodeRows) :
    RightAnswer w i := by
  refine .inr ⟨hrow ▸ hmem, ?_⟩
  subst hop hn
  rw [hrow, rowSelects, and_maskOpN]
  simp

theorem rightAnswer_opKK {w : Word} {i : Instr} {op kk : Nat} (hop : (opField w).toNat = op)
    (hkk : (kkField w).toNat = kk)
    (hrow : rowOf i = (0xF0FF, formatXK (BitVec.ofNat 4 op) 0 (BitVec.ofNat 8 kk)))
    (hmem : (0xF0FF, formatXK (BitVec.ofNat 4 op) 0 (BitVec.ofNat 8 kk)) ∈ opcodeRows) :
    RightAnswer w i := by
  refine .inr ⟨hrow ▸ hmem, ?_⟩
  subst hop hkk
  rw [hrow, rowSelects, and_maskOpKK]
  simp

theorem rightAnswer_nop {w : Word} (h : unmapped w = true) : RightAnswer w (.nop w) := .inl ⟨rfl, h⟩

theorem decodeFamily0_rightAnswer {w : Word} (hop : (opField w).toNat = 0x0) :
    RightAnswer w (decodeFamily0 w) := by
  unfold decodeFamily0
  split
  case h_3 h0 hE => exact rightAnswer_nop ((unmapped_iff w).mpr (.inl ⟨hop, h0, hE⟩))
  all_goals exact rightAnswer_opN hop ‹_› rfl (by decide)

theorem decodeFamily8_rightAnswer {w : Word} (hop : (opField w).toNat = 0x8) :
    RightAnswer w (decodeFamily8 w) := by
  unfold decodeFamily8
  split
  case h_10 =>
    simp only [imp_false] at *
    exact rightAnswer_nop ((unmapped_iff w).mpr (.inr (.inl ⟨hop, by omega, by omega⟩)))
  all_goals exact rightAnswer_opN hop ‹_› rfl (by decide)

theorem decodeFamilyE_rightAnswer {w : Word} (hop : (opField w).toNat = 0xE) :
    RightAnswer w (decodeFamilyE w) := by
  unfold decodeFamilyE
  split
  case h_3 hE h1 => exact rightAnswer_nop ((unmapped_iff w).mpr (.inr (.inr (.inl ⟨hop, h1, hE⟩))))
  all_goals exact rightAnswer_opN hop ‹_› rfl (by decide)

theorem decodeFamilyF_rightAnswer {w : Word} (hop : (opField w).toNat = 0xF) :
    RightAnswer w (decodeFamilyF w) := by
  unfold decodeFamilyF
  split
  case h_10 =>
    have hkk : (kkField w).toNat ∉ familyFSelectors := by
      simp_all [familyFSelectors]
    exact rightAnswer_nop ((unmapped_iff w).mpr (.inr (.inr (.inr ⟨hop, hkk⟩))))
  all_goals exact rightAnswer_opKK hop ‹_› rfl (by decide)

/-- Everything the decoder can answer (R77, R80), by the primary selector. -/
theorem decode_rightAnswer (w : Word) : RightAnswer w (decode w) := by
  unfold decode
  split
  case h_1 hop => exact decodeFamily0_rightAnswer hop
  case h_9 hop => exact decodeFamily8_rightAnswer hop
  case h_15 hop => exact decodeFamilyE_rightAnswer hop
  case h_16 =>
    have hlt := (opField w).isLt
    simp only [imp_false] at *
    exact decodeFamilyF_rightAnswer (by omega)
  all_goals exact rightAnswer_op ‹_› rfl (by decide)

/-- A row of the map belongs to no NOP, and every other instruction is well formed. -/
theorem not_nop_of_rowOf_mem {i : Instr} (h : rowOf i ∈ opcodeRows) :
    i.wellFormed = true ∧ ∀ w, i ≠ .nop w := by
  cases i with
  | nop w => exact absurd h (by decide : (0x0000, 0x0000) ∉ opcodeRows)
  | _ => exact ⟨rfl, nofun⟩

theorem decode_of_unmapped {w : Word} (h : unmapped w = true) : decode w = .nop w := by
  rcases decode_rightAnswer w with ⟨hnop, _⟩ | ⟨hmem, hsel⟩
  · exact hnop
  · rw [unmapped_eq_false_of_rowSelects hmem hsel] at h
    cases h

theorem decode_eq_nop {w v : Word} (h : decode w = .nop v) : v = w ∧ unmapped w = true := by
  rcases decode_rightAnswer w with ⟨hnop, hun⟩ | ⟨hmem, _⟩
  · exact ⟨Instr.nop.inj (h.symm.trans hnop), hun⟩
  · exact absurd h ((not_nop_of_rowOf_mem hmem).2 v)

theorem decode_wellFormed (w : Word) : (decode w).wellFormed = true := by
  rcases decode_rightAnswer w with ⟨hnop, hun⟩ | ⟨hmem, _⟩
  · rw [hnop]
    exact hun
  · exact (not_nop_of_rowOf_mem hmem).1

/-- Settles O2: the two kinds of right answer exclude each other. -/
theorem unmappedWordsDecodeToNop : Obligations.UnmappedWordsDecodeToNop :=
  ⟨decode_wellFormed, fun _ => ⟨decode_of_unmapped, fun h => (decode_eq_nop h).2⟩,
    fun _ _ h => (decode_eq_nop h).1⟩

/-- Settles O3: the decoder's answer has a row that selects the word, and only one row can. -/
theorem decodeFollowsTheOpcodeMap : Obligations.DecodeFollowsTheOpcodeMap := by
  refine ⟨fun w => ?_, fun w row hmem hsel => ?_, fun w hnone => ?_⟩
  · rcases decode_rightAnswer w with ⟨hnop, _⟩ | ⟨_, hsel⟩
    · simp [hnop, rowOf, rowSelects]
    · exact hsel
  · rcases decode_rightAnswer w with ⟨_, hun⟩ | ⟨hmem', hsel'⟩
    · rw [unmapped_eq_false_of_rowSelects hmem hsel] at hun
      cases hun
    · rw [row_eq_of_rowSelects hmem' hsel', ← row_eq_of_rowSelects hmem hsel]
  · rcases decode_rightAnswer w with ⟨hnop, _⟩ | ⟨hmem, hsel⟩
    · exact hnop
    · rw [hnone _ hmem] at hsel
      cases hsel

/-! ## Decoding what the encoder writes (R73, R79) -/

/-- The selectors and operands of a format are read back from its fields. -/
theorem decode_encode {i : Instr} (h : i.wellFormed = true) : decode (encode i) = i := by
  cases i with
  | cls | ret => rfl
  | jp _ | call _ | ldI _ | jpV0 _ => simp [encode, decode]
  | seImm _ _ | sneImm _ _ | ldImm _ _ | addImm _ _ | rnd _ _ => simp [encode, decode]
  | seReg _ _ | sneReg _ _ | drw _ _ _ => simp [encode, decode]
  | ldReg _ _ | orReg _ _ | andReg _ _ | xorReg _ _ | addReg _ _ | subReg _ _ | shr _ _ | subnReg _ _
  | shl _ _ => simp [encode, decode, decodeFamily8]
  | skp _ | sknp _ => simp [encode, decode, decodeFamilyE]
  | ldVxDt _ | ldVxK _ | ldDtVx _ | ldStVx _ | addI _ | ldF _ | ldB _ | storeRange _ | loadRange _ =>
    simp [encode, decode, decodeFamilyF]
  | nop w => exact decode_of_unmapped h

/-- Settles O1: the word decodes back, and its two bytes are the word's. -/
theorem decodeOfEncodeIsTheInstruction : Obligations.DecodeOfEncodeIsTheInstruction := by
  intro i hi
  refine ⟨decode_encode hi, fun rest => ?_⟩
  rw [encodeBytes, decodeBytes_bytesOfWord, decode_encode hi]

end Sys2Proof

namespace Sys2Proof.Machine

/-- Settles O6: `beginCycle` is the advance of `pc` and the cleared report. -/
theorem stepRunsTheDecodedInstruction : Obligations.StepRunsTheDecodedInstruction :=
  fun _ _ => step_of_fetches

end Sys2Proof.Machine

/-! PROOFS. Control transfer (spec/40_control_transfer.md): JP, CALL, RET and JP V0. -/

namespace Sys2Proof

/-! ## The words of the jumps and the return (R79) -/

theorem decode_of_selects_jp {w : Word} (h : w &&& 0xF000 = 0x1000) : decode w = .jp (nnnField w) := by
  rw [decode, opField_of_masked h]
  rfl

theorem decode_of_selects_jpV0 {w : Word} (h : w &&& 0xF000 = 0xB000) :
    decode w = .jpV0 (nnnField w) := by
  rw [decode, opField_of_masked h]
  rfl

theorem decode_of_selects_ret {w : Word} (h : w &&& 0xF00F = 0x000E) : decode w = .ret := by
  obtain ⟨hop, hn⟩ := selectors_of_maskedN h
  rw [decode, hop]
  change decodeFamily0 w = .ret
  rw [decodeFamily0, hn]
  rfl

end Sys2Proof

namespace Sys2Proof.Machine

/-! ## Jump targets as numbers (R100, R103) -/

theorem zext16OfAddr_toNat (nnn : Addr12) : (zext16OfAddr nnn).toNat = nnn.toNat :=
  BitVec.toNat_setWidth_of_le (by decide)

theorem zext16OfByte_toNat (b : Byte) : (zext16OfByte b).toNat = b.toNat :=
  BitVec.toNat_setWidth_of_le (by decide)

/-- The target of JP V0: a byte and a 12-bit address never reach 65536, so their sum is not reduced. -/
theorem zext16_byte_add_addr_toNat (b : Byte) (nnn : Addr12) :
    (zext16OfByte b + zext16OfAddr nnn).toNat = b.toNat + nnn.toNat := by
  have hb : b.toNat < 256 := b.isLt
  have hn : nnn.toNat < 4096 := nnn.isLt
  rw [BitVec.toNat_add_of_lt] <;> rw [zext16OfByte_toNat, zext16OfAddr_toNat]
  omega

/-! ## CALL and RET, one case at a time (R101, R102) -/

theorem exec_call_of_lt (nnn : Addr12) {s : State} (h : s.sp.val < 16) :
    exec (.call nnn) s = .next (setPc (setPushed s s.pc h) (zext16OfAddr nnn)) :=
  (exec_call_eq nnn s).trans (dif_pos h)

theorem exec_call_of_full (nnn : Addr12) {s : State} (h : s.sp.val = 16) :
    exec (.call nnn) s = .next (setReport s .stackOverflow) :=
  (exec_call_eq nnn s).trans (dif_neg (by omega))

/-- With `k + 1` addresses held the last pushed one is entry `k`. -/
theorem exec_ret_of_succ {s : State} {k : Fin 16} (h : s.sp.val = k.val + 1) :
    exec .ret s = .next (setPc (setPopped s) s.stack[k.val]) := by
  have hk : s.sp.val - 1 = k.val := by omega
  rw [exec_ret_eq, dif_pos (by omega)]
  simp only [hk]

theorem exec_ret_of_empty {s : State} (h : s.sp.val = 0) :
    exec .ret s = .next (setReport s .stackUnderflow) :=
  (exec_ret_eq s).trans (dif_neg (by omega))

/-- The entries after a push: the pushed word at the old depth, every other as it was (R31). -/
theorem getElem_setPushed_stack {s : State} {w : Word} (h : s.sp.val < 16) (k : Fin 16) :
    (setPushed s w h).stack[k.val] = if k.val = s.sp.val then w else s.stack[k.val] := by
  simp only [setPushed_stack, Vector.getElem_set, eq_comm]

/-! ## The obligations -/

/-- Settles O26: RET pops the entry CALL pushed, which is the one above the live entries. -/
theorem callThenReturnComesBack : Obligations.CallThenReturnComesBack := by
  intro nnn s t u hsp hcall hstack hdepth
  rw [exec_call_of_lt nnn hsp] at hcall
  obtain rfl := Host.Outcome.next.inj hcall
  have hentry (k : Fin 16) : u.stack[k.val] = if k.val = s.sp.val then s.pc else s.stack[k.val] := by
    simp only [hstack, setPc_stack, getElem_setPushed_stack]
  have hu : u.sp.val = s.sp.val + 1 := congrArg Fin.val hdepth
  refine ⟨_, exec_ret_of_succ (k := ⟨s.sp.val, hsp⟩) hu, ?_,
    Fin.ext (Nat.sub_eq_of_eq_add hu), fun k hk => ?_⟩
  · exact (hentry ⟨s.sp.val, hsp⟩).trans (if_pos rfl)
  · exact (hentry k).trans (if_neg (Nat.ne_of_lt hk))

/-- Settles O22: the address is zero-extended and only `pc` is written. -/
theorem jumpGoesToItsAddress : Obligations.JumpGoesToItsAddress :=
  ⟨fun _ => decode_of_selects_jp, fun nnn _ => ⟨_, rfl, zext16OfAddr_toNat nnn, rfl⟩⟩

/-- Settles O23: a push with room, a report on a full stack. -/
theorem callPushesOrReportsOverflow : Obligations.CallPushesOrReportsOverflow :=
  ⟨fun nnn _ hsp =>
    ⟨_, exec_call_of_lt nnn hsp, getElem_setPushed_stack hsp, rfl, zext16OfAddr_toNat nnn, rfl⟩,
    fun nnn _ => exec_call_of_full nnn⟩

/-- Settles O24: a pop of entry `k` at depth `k + 1`, a report on an empty stack. -/
theorem returnPopsOrReportsUnderflow : Obligations.ReturnPopsOrReportsUnderflow :=
  ⟨fun _ => decode_of_selects_ret,
    fun _ _ hsp => ⟨_, exec_ret_of_succ hsp, Nat.sub_eq_of_eq_add hsp, rfl, rfl⟩,
    fun _ => exec_ret_of_empty⟩

/-- Settles O25: the 16-bit sum does not wrap. -/
theorem jumpWithOffsetAddsV0 : Obligations.JumpWithOffsetAddsV0 :=
  ⟨fun _ => decode_of_selects_jpV0,
    fun nnn s => ⟨_, rfl, zext16_byte_add_addr_toNat (reg s 0) nnn, rfl⟩⟩

end Sys2Proof.Machine

/-! PROOFS. Conditional skip (spec/41_conditional_skip.md): SE, SNE, SKP and SKNP. -/

namespace Sys2Proof

/-! ## The words of the skips (R79) -/

theorem decode_of_selects_seImm {w : Word} (h : w &&& 0xF000 = 0x3000) :
    decode w = .seImm (xField w) (kkField w) := by
  rw [decode, opField_of_masked h]
  rfl

theorem decode_of_selects_sneImm {w : Word} (h : w &&& 0xF000 = 0x4000) :
    decode w = .sneImm (xField w) (kkField w) := by
  rw [decode, opField_of_masked h]
  rfl

theorem decode_of_selects_seReg {w : Word} (h : w &&& 0xF000 = 0x5000) :
    decode w = .seReg (xField w) (yField w) := by
  rw [decode, opField_of_masked h]
  rfl

theorem decode_of_selects_sneReg {w : Word} (h : w &&& 0xF000 = 0x9000) :
    decode w = .sneReg (xField w) (yField w) := by
  rw [decode, opField_of_masked h]
  rfl

theorem decode_of_opField_E {w : Word} (h : opField w = 0xE) : decode w = decodeFamilyE w := by
  rw [decode, h]
  rfl

theorem decode_of_selects_skp {w : Word} (h : w &&& 0xF00F = 0xE00E) : decode w = .skp (xField w) := by
  obtain ⟨hop, hn⟩ := selectors_of_maskedN h
  rw [decode_of_opField_E hop, decodeFamilyE, hn]
  rfl

theorem decode_of_selects_sknp {w : Word} (h : w &&& 0xF00F = 0xE001) :
    decode w = .sknp (xField w) := by
  obtain ⟨hop, hn⟩ := selectors_of_maskedN h
  rw [decode_of_opField_E hop, decodeFamilyE, hn]
  rfl

end Sys2Proof

namespace Sys2Proof.Machine

/-! ## A skip by its condition -/

theorem skipIf_of_iff {c : Bool} {p : Prop} [Decidable p] (h : c = true ↔ p) (s : State) :
    skipIf c s = { s with pc := if p then s.pc + 2 else s.pc } := by
  simp only [skipIf_eq, h]

/-- As `skipIf_of_iff`, for a condition that holds where nothing is skipped. -/
theorem skipIf_of_iff_not {c : Bool} {p : Prop} [Decidable p] (h : c = true ↔ ¬ p) (s : State) :
    skipIf c s = { s with pc := if p then s.pc else s.pc + 2 } := by
  rw [skipIf_of_iff h, ite_not]

/-- SE compares unsigned values (R110, R112). -/
theorem beq_iff_toNat_eq {a b : Byte} : (a == b) = true ↔ a.toNat = b.toNat :=
  beq_iff_eq.trans BitVec.toNat_inj.symm

/-- SNE compares unsigned values (R111, R113). -/
theorem bne_iff_toNat_ne {a b : Byte} : (a != b) = true ↔ ¬ a.toNat = b.toNat :=
  bne_iff_ne.trans BitVec.toNat_ne_iff_ne.symm

/-! ## SKP and SKNP, one case at a time (R114, R115, R203) -/

theorem skipOnKey_of_key {down : Bool} {b : Byte} {s : State} {k : Fin 16} (h : b.toNat = k.val) :
    skipOnKey down b s = .next (skipIf (keyDown s k == down) s) := by
  have hlt : b.toNat < 16 := h ▸ k.isLt
  have hkey : (⟨b.toNat, hlt⟩ : Fin 16) = k := Fin.ext h
  rw [skipOnKey_eq, dif_pos hlt, hkey]

theorem skipOnKey_of_ge {down : Bool} {b : Byte} {s : State} (h : 16 ≤ b.toNat) :
    skipOnKey down b s = .next (setReport s .invalidKeyIndex) :=
  (skipOnKey_eq down b s).trans (dif_neg (Nat.not_lt.mpr h))

theorem exec_skp_of_key {x : Reg} {s : State} {k : Fin 16} (h : (reg s x).toNat = k.val) :
    exec (.skp x) s = .next { s with pc := if keyDown s k = true then s.pc + 2 else s.pc } :=
  (skipOnKey_of_key h).trans (congrArg _ (skipIf_of_iff beq_iff_eq s))

theorem exec_sknp_of_key {x : Reg} {s : State} {k : Fin 16} (h : (reg s x).toNat = k.val) :
    exec (.sknp x) s = .next { s with pc := if keyDown s k = true then s.pc else s.pc + 2 } :=
  (skipOnKey_of_key h).trans
    (congrArg _ (skipIf_of_iff_not (beq_iff_eq.trans Bool.eq_false_iff) s))

/-! ## The obligations -/

/-- Settles O27: each compare is a skip on equal, or on unequal, unsigned values. -/
theorem compareSkipsTheNextInstruction : Obligations.CompareSkipsTheNextInstruction :=
  ⟨⟨fun _ => decode_of_selects_seImm, fun _ => decode_of_selects_sneImm,
      fun _ => decode_of_selects_seReg, fun _ => decode_of_selects_sneReg⟩,
    fun _ _ _ s =>
      ⟨congrArg _ (skipIf_of_iff beq_iff_toNat_eq s),
        congrArg _ (skipIf_of_iff_not bne_iff_toNat_ne s),
        congrArg _ (skipIf_of_iff beq_iff_toNat_eq s),
        congrArg _ (skipIf_of_iff_not bne_iff_toNat_ne s)⟩⟩

/-- Settles O28: a value below 16 names the key that decides, any other is reported. -/
theorem keySkipsFollowTheKeypad : Obligations.KeySkipsFollowTheKeypad :=
  ⟨⟨fun _ => decode_of_selects_skp, fun _ => decode_of_selects_sknp⟩,
    fun _ _ _ hk => ⟨exec_skp_of_key hk, exec_sknp_of_key hk⟩,
    fun _ _ h => ⟨skipOnKey_of_ge h, skipOnKey_of_ge h⟩⟩

end Sys2Proof.Machine

/-! PROOFS. Register load, arithmetic, logic and shift (spec/42_register_alu.md). -/

namespace Sys2Proof

/-! ## The words of the register loads (R79) -/

theorem decode_of_selects_ldImm {w : Word} (h : w &&& 0xF000 = 0x6000) :
    decode w = .ldImm (xField w) (kkField w) := by
  rw [decode, opField_of_masked h]
  rfl

theorem decode_of_selects_ldReg {w : Word} (h : w &&& 0xF00F = 0x8000) :
    decode w = .ldReg (xField w) (yField w) := by
  obtain ⟨hop, hn⟩ := selectors_of_maskedN h
  rw [decode, hop]
  change decodeFamily8 w = _
  rw [decodeFamily8, hn]
  rfl

end Sys2Proof

namespace Sys2Proof.Machine

/-! ## Flags and results as numbers (R22) -/

theorem flagByte_toNat (c : Bool) : (flagByte c).toNat = c.toNat := by
  cases c <;> rfl

theorem flagByte_decide_toNat (p : Prop) [Decidable p] :
    (flagByte (decide p)).toNat = if p then 1 else 0 := by
  rw [flagByte_toNat]
  exact Bool.cond_decide p 1 0

theorem shiftRightFlag_toNat (a : Byte) : (shiftRightFlag a).toNat = a.toNat % 2 := by
  rw [shiftRightFlag, flagByte_toNat, BitVec.getLsbD, Nat.toNat_testBit, Nat.pow_zero, Nat.div_one]

/-- Bit 7 is the quotient by 128, as a byte is below 256. -/
theorem shiftLeftFlag_toNat (a : Byte) : (shiftLeftFlag a).toNat = a.toNat / 128 := by
  rw [shiftLeftFlag, flagByte_toNat, BitVec.getLsbD, Nat.toNat_testBit]
  have ha : a.toNat < 256 := a.isLt
  omega

/-- The difference modulo 256, with no natural number going below 0. -/
theorem byte_sub_toNat (a b : Byte) : (a - b).toNat = (256 + a.toNat - b.toNat) % 256 := by
  rw [BitVec.toNat_sub, Nat.sub_add_comm (Nat.le_of_lt b.isLt)]

theorem byte_ushiftRight_one_toNat (a : Byte) : (a >>> 1).toNat = a.toNat / 2 := by
  rw [BitVec.toNat_ushiftRight, Nat.shiftRight_eq_div_pow, Nat.pow_one]

theorem byte_shiftLeft_one_toNat (a : Byte) : (a <<< 1).toNat = a.toNat * 2 % 256 := by
  rw [BitVec.toNat_shiftLeft, Nat.shiftLeft_eq, Nat.pow_one]

/-! ## The effect of the register writes -/

theorem sameRegsBut_setReg (s : State) (x : Reg) (b : Byte) : sameRegsBut x s (setReg s x b) :=
  fun _ => reg_setReg_other s b

/-- The effect that ADD, SUB, SUBN, SHR and SHL share (R25): `V[x]` has the result's value, VF the flag's
unless `x = F`, and nothing else changes. -/
theorem next_setFlagAndResult {flag result : Byte} {f r : Nat} (s : State) (x : Reg)
    (hresult : result.toNat = r) (hflag : flag.toNat = f) :
    ∃ t, (.next (setFlagAndResult vfOrder s x flag result) : Result) = .next t ∧
      (reg t x).toNat = r ∧ (x ≠ 15 → (reg t 15).toNat = f) ∧
      (∀ z, z ≠ x → z ≠ 15 → reg t z = reg s z) ∧ t = { s with V := t.V } := by
  refine ⟨_, rfl, ?_, fun hx => ?_, fun z hzx hzF => ?_, rfl⟩
  · rw [reg_setFlagAndResult, if_pos rfl, hresult]
  · rw [reg_setFlagAndResult, if_neg hx.symm, if_pos rfl, hflag]
  · rw [reg_setFlagAndResult, if_neg hzx, if_neg hzF]

/-! ## The obligations -/

/-- Settles O34: the flag is the comparison of the unreduced sum with 255. -/
theorem addSetsCarry : Obligations.AddSetsCarry := fun x y s =>
  next_setFlagAndResult s x (BitVec.toNat_add (reg s x) (reg s y)) (flagByte_decide_toNat _)

/-- Settles O35: SUBN is SUB with the operands exchanged. -/
theorem subtractSetsNoBorrow : Obligations.SubtractSetsNoBorrow := fun x y s =>
  ⟨next_setFlagAndResult s x (byte_sub_toNat (reg s x) (reg s y)) (flagByte_decide_toNat _),
    next_setFlagAndResult s x (byte_sub_toNat (reg s y) (reg s x)) (flagByte_decide_toNat _)⟩

/-- Settles O36: the shifted register is `V[x]`, and the flag is its bit 0 or its bit 7. -/
theorem shiftsByOneSetTheBitShiftedOut : Obligations.ShiftsByOneSetTheBitShiftedOut := fun x _ s =>
  ⟨next_setFlagAndResult s x (byte_ushiftRight_one_toNat (reg s x)) (shiftRightFlag_toNat (reg s x)),
    next_setFlagAndResult s x (byte_shiftLeft_one_toNat (reg s x)) (shiftLeftFlag_toNat (reg s x))⟩

/-- Settles O30: one register write, of the immediate. -/
theorem loadImmediateWritesTheByte : Obligations.LoadImmediateWritesTheByte :=
  ⟨fun _ => decode_of_selects_ldImm,
    fun x kk s => ⟨_, rfl, reg_setReg_same s x kk, sameRegsBut_setReg s x kk, rfl⟩⟩

/-- Settles O31: one register write, of the source register's byte. -/
theorem copyTakesTheSourceRegister : Obligations.CopyTakesTheSourceRegister :=
  ⟨fun _ => decode_of_selects_ldReg,
    fun x _ s => ⟨_, rfl, reg_setReg_same s x _, sameRegsBut_setReg s x _, rfl⟩⟩

/-- Settles O32: one register write, of the 8-bit sum. -/
theorem addImmediateWrapsWithoutFlag : Obligations.AddImmediateWrapsWithoutFlag := by
  intro x kk s
  refine ⟨_, rfl, ?_, sameRegsBut_setReg s x _, rfl⟩
  rw [reg_setReg_same, BitVec.toNat_add]

/-- Settles O33: each is one register write, of the bitwise result. -/
theorem logicIsBitwiseWithoutFlag : Obligations.LogicIsBitwiseWithoutFlag := by
  intro x y s
  refine ⟨⟨_, rfl, fun j _ => ?_, sameRegsBut_setReg s x _, rfl⟩,
    ⟨_, rfl, fun j _ => ?_, sameRegsBut_setReg s x _, rfl⟩,
    ⟨_, rfl, fun j _ => ?_, sameRegsBut_setReg s x _, rfl⟩⟩
  · rw [reg_setReg_same, BitVec.getLsbD_or]
  · rw [reg_setReg_same, BitVec.getLsbD_and]
  · rw [reg_setReg_same, BitVec.getLsbD_xor]

end Sys2Proof.Machine

/-! PROOFS. The index register and memory (spec/43_index_memory.md): LD I, ADD I, LD F, LD B and the range
instructions. -/

namespace Sys2Proof

/-! ## The word of LD I (R79) -/

theorem decode_of_selects_ldI {w : Word} (h : w &&& 0xF000 = 0xA000) : decode w = .ldI (nnnField w) := by
  rw [decode, opField_of_masked h]
  rfl

end Sys2Proof

namespace Sys2Proof.Machine

/-! ## The index as a number (R141, R144, D9) -/

theorem add_zext16OfByte_toNat (w : Word) (b : Byte) :
    (w + zext16OfByte b).toNat = (w.toNat + b.toNat) % 65536 := by
  rw [BitVec.toNat_add, zext16OfByte_toNat]

/-- Past a range that lies in memory `I` does not wrap. -/
theorem add_advanceOf_toNat {w : Word} {x : Reg} (h : w.toNat + x.val ≤ 0xFFF) :
    (w + advanceOf rangeAdvance x).toNat = w.toNat + x.val + 1 := by
  have hadv : (advanceOf rangeAdvance x).toNat = x.val + 1 := Nat.mod_eq_of_lt (by omega)
  rw [BitVec.toNat_add_of_lt (by omega), hadv, Nat.add_assoc]

/-! ## What is stored and what is loaded (R143, R144, R145) -/

theorem decimalDigits_toNat (b : Byte) :
    (decimalDigits b).map BitVec.toNat = [b.toNat / 100, b.toNat / 10 % 10, b.toNat % 10] := by
  have hb : b.toNat < 256 := b.isLt
  simp only [decimalDigits, List.map_cons, List.map_nil, BitVec.toNat_ofNat, List.cons.injEq, and_true]
  omega

/-- After LD B the byte at `I + k` is digit `k`. -/
theorem read_storedAtI_decimalDigits_toNat (s : State) (b : Byte) {k : Nat} (hk : k < 3) :
    ((storedAtI s (decimalDigits b)).read (base s + k)).toNat =
      [b.toNat / 100, b.toNat / 10 % 10, b.toNat % 10][k] := by
  rw [storedAtI, read_storeBytes_inside _ _ _ k (by simpa using hk)]
  simp only [← decimalDigits_toNat, List.getElem_map]

/-! ## The instructions where every address exists (R56) -/

theorem exec_ldB_of_le (x : Reg) {s : State} (h : s.I.toNat + 2 ≤ 0xFFF) :
    exec (.ldB x) s = .next (setMem s (storedAtI s (decimalDigits (reg s x)))) :=
  (exec_ldB_eq x s).trans (if_pos (Nat.succ_le_succ h))

theorem exec_storeRange_of_le {x : Reg} {s : State} (h : s.I.toNat + x.val ≤ 0xFFF) :
    exec (.storeRange x) s =
      .next (setI (setMem s (storedAtI s (regRange s x))) (s.I + advanceOf rangeAdvance x)) :=
  (exec_storeRange_eq x s).trans (if_pos (Nat.succ_le_succ h))

/-- A range store that completes had its last address in memory. -/
theorem le_of_exec_storeRange_next {x : Reg} {s t : State} (h : exec (.storeRange x) s = .next t) :
    s.I.toNat + x.val ≤ 0xFFF := by
  obtain ⟨hacc, -⟩ := exec_next (pc_eq_sub_add s) h
  exact Nat.le_of_succ_le_succ (hacc.resolve_left (Nat.succ_ne_zero _))

/-- The state after a range load. -/
def rangeLoaded (x : Reg) (s : State) : State :=
  setI (setRegs s (loadRegs s.V 0 (bytesAtI s (x.val + 1)))) (s.I + advanceOf rangeAdvance x)

theorem exec_loadRange_of_le {x : Reg} {s : State} (h : s.I.toNat + x.val ≤ 0xFFF) :
    exec (.loadRange x) s = .next (rangeLoaded x s) :=
  (exec_loadRange_eq x s).trans (if_pos (Nat.succ_le_succ h))

theorem reg_rangeLoaded (x : Reg) (s : State) (z : Reg) :
    reg (rangeLoaded x s) z = if z.val ≤ x.val then s.mem.read (base s + z.val) else reg s z :=
  getElem_loadRegs_bytes s.V s.mem (base s) x z

/-! ## The obligations -/

/-- Settles O40: the three stored bytes are the digits, and a run of three is all that is stored. -/
theorem decimalDigitsAreStored : Obligations.DecimalDigitsAreStored := by
  intro x s hI
  have hdigit {k : Nat} := read_storedAtI_decimalDigits_toNat s (reg s x) (k := k)
  exact ⟨_, exec_ldB_of_le x hI, hdigit (k := 0) (by decide), hdigit (k := 1) (by decide),
    hdigit (k := 2) (by decide), fun _ => read_memAfter_outside (i := .ldB x), rfl⟩

/-- Settles O41: the stored run is V0 to Vx, and `I` advances without wrapping. -/
theorem rangeStoreWritesV0ToVx : Obligations.RangeStoreWritesV0ToVx := fun x s hI =>
  ⟨_, exec_storeRange_of_le hI, fun _ => read_storedAtI_regRange s,
    fun _ => read_memAfter_outside (i := .storeRange x), add_advanceOf_toNat hI, rfl⟩

/-- Settles O42: up to `x` a register is the byte at `I + z`, above `x` it is kept. -/
theorem rangeLoadFillsV0ToVx : Obligations.RangeLoadFillsV0ToVx := fun x s hI =>
  ⟨_, exec_loadRange_of_le hI, fun z hz => (reg_rangeLoaded x s z).trans (if_pos hz),
    fun z hz => (reg_rangeLoaded x s z).trans (if_neg (Nat.not_le.mpr hz)), fun _ => rfl,
    add_advanceOf_toNat hI, rfl⟩

/-- Settles O43: the load reads at `I + z` what the store wrote there, which is `V[z]`. -/
theorem rangeLoadUndoesRangeStore : Obligations.RangeLoadUndoesRangeStore := by
  intro x s t u hstore hmem hI
  have hle := le_of_exec_storeRange_next hstore
  rw [exec_storeRange_of_le hle] at hstore
  obtain rfl := Host.Outcome.next.inj hstore
  have hbase : base u = base s := congrArg BitVec.toNat hI
  refine ⟨_, exec_loadRange_of_le (hI ▸ hle), congrArg (· + _) hI, fun z hz => ?_⟩
  rw [reg_rangeLoaded, if_pos hz, hbase, hmem]
  exact read_storedAtI_regRange s hz

/-- Settles O37: the address is zero-extended and only `I` is written. -/
theorem loadIndexTakesTheAddress : Obligations.LoadIndexTakesTheAddress :=
  ⟨fun _ => decode_of_selects_ldI, fun nnn _ => ⟨_, rfl, zext16OfAddr_toNat nnn, rfl⟩⟩

/-- Settles O38: the 16-bit sum, and only `I` is written. -/
theorem addToIndexWrapsAt16Bits : Obligations.AddToIndexWrapsAt16Bits :=
  fun x s => ⟨_, rfl, add_zext16OfByte_toNat s.I (reg s x), rfl⟩

/-- Settles O39: the two branches of `exec_ldF_eq`. -/
theorem glyphLookupPointsAtTheDigit : Obligations.GlyphLookupPointsAtTheDigit :=
  ⟨fun x s hd => ⟨_, (exec_ldF_eq x s).trans (if_pos hd), glyphAddress_toNat hd, rfl⟩,
    fun x s hd => (exec_ldF_eq x s).trans (if_neg (Nat.not_le.mpr hd))⟩

end Sys2Proof.Machine

/-! PROOFS. Timers and the key wait (spec/44_timer_key.md): LD Vx, DT, LD DT, LD ST and LD Vx, K. -/

namespace Sys2Proof

/-! ## The words of the timer loads and the key wait (R79) -/

/-- A word is its selector, its register field and its low byte. -/
theorem formatXK_fields (w : Word) : formatXK (opField w) (xField w) (kkField w) = w := by
  rw [formatXK, opField, xField, kkField, BitVec.ofFin_toFin,
    BitVec.extractLsb'_append_extractLsb'_eq_extractLsb' (by decide),
    BitVec.extractLsb'_append_extractLsb'_eq_extractLsb' (by decide)]
  exact BitVec.extractLsb'_eq_self

/-- A word that a row of family F selects is the encoding of that row's instruction on its register field,
so it decodes to it (R73). -/
theorem decode_of_selects_familyF {w : Word} {kk : Byte} {i : Instr}
    (h : w &&& 0xF0FF = formatXK 0xF 0 kk) (hi : i.wellFormed = true)
    (henc : encode i = formatXK 0xF (xField w) kk) : decode w = i := by
  rw [and_maskOpKK] at h
  have hop : opField w = 0xF := by simpa using congrArg opField h
  have hkk : kkField w = kk := by simpa using congrArg kkField h
  have hw : encode i = w := by rw [henc, ← hop, ← hkk, formatXK_fields]
  rw [← hw, decode_encode hi]

theorem decode_of_selects_ldVxDt {w : Word} (h : w &&& 0xF0FF = 0xF007) :
    decode w = .ldVxDt (xField w) := decode_of_selects_familyF (kk := 0x07) h rfl rfl

theorem decode_of_selects_ldVxK {w : Word} (h : w &&& 0xF0FF = 0xF00A) :
    decode w = .ldVxK (xField w) := decode_of_selects_familyF (kk := 0x0A) h rfl rfl

theorem decode_of_selects_ldDtVx {w : Word} (h : w &&& 0xF0FF = 0xF015) :
    decode w = .ldDtVx (xField w) := decode_of_selects_familyF (kk := 0x15) h rfl rfl

theorem decode_of_selects_ldStVx {w : Word} (h : w &&& 0xF0FF = 0xF018) :
    decode w = .ldStVx (xField w) := decode_of_selects_familyF (kk := 0x18) h rfl rfl

end Sys2Proof

namespace Sys2Proof.Machine

/-! ## The key wait, one case at a time (R151) -/

theorem exec_ldVxK_of_lowest (x : Reg) {s : State} {k : Fin 16} (hdown : keyDown s k = true)
    (hbelow : ∀ j : Fin 16, j < k → keyDown s j = false) :
    exec (.ldVxK x) s = .next (setReg s x (BitVec.ofNat 8 k.val)) := by
  have hk : lowestKeyDown s = some k.val :=
    (lowestKeyDown_eq_some s k.val).mpr ⟨k.isLt, hdown, hbelow⟩
  rw [exec, execLdVxK, hk]

theorem exec_ldVxK_of_up (x : Reg) {s : State} (hup : ∀ k : Fin 16, keyDown s k = false) :
    exec (.ldVxK x) s = .next (rewind s) := by
  rw [exec, execLdVxK, (lowestKeyDown_eq_none s).mpr hup]

/-- A key's number fits in a byte. -/
theorem ofNat_key_toNat (k : Fin 16) : (BitVec.ofNat 8 k.val).toNat = k.val :=
  Nat.mod_eq_of_lt (by omega)

/-- The rewind takes back the advance of the fetch, so a waiting cycle only clears the report. -/
theorem rewind_beginCycle (s : State) : rewind (beginCycle s) = { s with reportOut := .none } :=
  State.ext_reg (pc := BitVec.add_sub_cancel s.pc 2)

/-! ## The obligations -/

/-- Settles O45: the lowest key is the one register write, and with no key down the rewind undoes the
advance. -/
theorem keyWaitTakesTheLowestKey : Obligations.KeyWaitTakesTheLowestKey := by
  refine ⟨fun _ => decode_of_selects_ldVxK, fun x s k hdown hbelow => ?_,
    fun x _ => exec_ldVxK_of_up x, fun x s hfetch hup => ?_⟩
  · refine ⟨_, exec_ldVxK_of_lowest x hdown hbelow, ?_, sameRegsBut_setReg s x _, rfl⟩
    rw [reg_setReg_same, ofNat_key_toNat]
  · rw [step_of_fetches hfetch, exec_ldVxK_of_up x (s := beginCycle s) hup, rewind_beginCycle]

/-- Settles O44: one register write of DT, and one write of each timer; the cue is untouched (R153). -/
theorem timerRegistersAreReadAndWritten : Obligations.TimerRegistersAreReadAndWritten :=
  ⟨⟨fun _ => decode_of_selects_ldVxDt, fun _ => decode_of_selects_ldDtVx,
      fun _ => decode_of_selects_ldStVx⟩,
    fun x s =>
      ⟨⟨_, rfl, reg_setReg_same s x s.DT, sameRegsBut_setReg s x s.DT, rfl⟩, rfl, rfl⟩⟩

end Sys2Proof.Machine

/-! PROOFS. The random instruction (spec/45_random.md): RND. -/

namespace Sys2Proof.Machine

/-- A bit of the masked byte is the drawn bit under the mask bit (R160). -/
theorem getLsbD_maskedRandom (rand kk : Byte) (j : Nat) :
    (maskedRandom rand kk).getLsbD j = (rand.getLsbD j && kk.getLsbD j) := BitVec.getLsbD_and

/-- The state after RND: one register write, then the draw is used up (R160). -/
def afterRnd (x : Reg) (kk : Byte) (s : State) : State :=
  advanceDraws (setReg s x (maskedRandom (nextRandom s) kk))

theorem exec_rnd (x : Reg) (kk : Byte) (s : State) : exec (.rnd x kk) s = .next (afterRnd x kk s) := rfl

theorem reg_afterRnd_same (x : Reg) (kk : Byte) (s : State) :
    reg (afterRnd x kk s) x = maskedRandom (nextRandom s) kk := by
  rw [afterRnd, reg_advanceDraws, reg_setReg_same]

theorem sameRegsBut_afterRnd (x : Reg) (kk : Byte) (s : State) : sameRegsBut x s (afterRnd x kk s) :=
  sameRegsBut_setReg s x _

theorem getLsbD_reg_afterRnd (x : Reg) (kk : Byte) (s : State) (j : Nat) :
    (reg (afterRnd x kk s) x).getLsbD j = ((Config.randByte s.draws).getLsbD j && kk.getLsbD j) := by
  rw [reg_afterRnd_same, getLsbD_maskedRandom, nextRandom]

/-! ## The obligation -/

/-- Settles O46: each bit is the conjunction, whatever the drawn bit is, so a mask bit of 0 gives 0. -/
theorem randomByteIsMasked : Obligations.RandomByteIsMasked := by
  intro x kk s
  have hbit := getLsbD_reg_afterRnd x kk s
  have hmask : ∀ j < 8, kk.getLsbD j = false → (reg (afterRnd x kk s) x).getLsbD j = false := by
    intro j _ hkk
    rw [hbit, hkk, Bool.and_false]
  exact ⟨_, exec_rnd x kk s, fun j _ => hbit j, hmask, sameRegsBut_afterRnd x kk s, rfl, rfl⟩

end Sys2Proof.Machine

/-! PROOFS. The display instructions (spec/46_display.md): CLS and DRW. -/

namespace Sys2Proof.Machine

/-! ## One DRW

`drawn` is the state after a DRW that completes, `covered` the shape of its sprite on the grid. The laws of the
sprite scan say what `drawn` holds in terms of `covered`; the obligations are read off these. -/

/-- The state after a DRW that completes (R166). -/
def drawn (x y : Reg) (n : Fin 16) (s : State) : State :=
  setDisplay (setReg s regVF (collisionFlag (drawing x y n s).hit)) (drawing x y n s).disp

/-- DRW completes exactly when every byte of the sprite is in memory (R56). -/
theorem exec_drw_eq_next_iff {x y : Reg} {n : Fin 16} {s t : State} :
    exec (.drw x y n) s = .next t ↔ (n.val = 0 ∨ s.I.toNat + n.val ≤ 0x1000) ∧ t = drawn x y n s := by
  rw [exec_drw_eq]
  split
  next hmem => simp only [hmem, true_and, Host.Outcome.next.injEq, eq_comm, drawn]
  next hmem => simp only [hmem, false_and, raiseAddressFault, reduceCtorEq]

/-- Whether the sprite of DRW covers pixel `(r, c)`. -/
def covered (x y : Reg) (n : Fin 16) (s : State) (r c : Nat) : Bool :=
  spriteCovers (bytesAtI s n.val) (originRow (reg s y)) (originColumn (reg s x)) r c

theorem covered_iff_spriteOn (x y : Reg) (n : Fin 16) (s : State) (r c : Nat) :
    covered x y n s r c = true ↔ spriteOn s x y n r c :=
  spriteCovers_bytesAtI s n.val (originRow (reg s y)) (originColumn (reg s x)) r c

theorem pixel_drawn (x y : Reg) (n : Fin 16) (s : State) {r c : Nat} (hr : r < 32) (hc : c < 64) :
    pixel (drawn x y n s).disp r c = (pixel s.disp r c ^^ covered x y n s r c) :=
  (plotSprite_spec _ _ _ _).1 r hr c hc

theorem reg_drawn_VF (x y : Reg) (n : Fin 16) (s : State) :
    reg (drawn x y n s) 15 = collisionFlag (drawing x y n s).hit :=
  reg_setReg_same s regVF _

theorem sameRegsBut_drawn (x y : Reg) (n : Fin 16) (s : State) : sameRegsBut 15 s (drawn x y n s) :=
  sameRegsBut_setReg s regVF _

theorem collisionFlag_eq_zero_or_one (hit : Bool) : collisionFlag hit = 0 ∨ collisionFlag hit = 1 := by
  cases hit with
  | false => exact .inl rfl
  | true => exact .inr rfl

/-- An exclusive or holds when its two sides do not agree. -/
theorem xor_eq_true_iff (a b : Bool) : (a ^^ b) = true ↔ ¬ (a = true ↔ b = true) := by
  decide +revert

/-- VF is 1 exactly on a collision; the scan starts without one. -/
theorem reg_drawn_VF_eq_one_iff (x y : Reg) (n : Fin 16) (s : State) :
    reg (drawn x y n s) 15 = 1 ↔
      ∃ r < 32, ∃ c < 64, covered x y n s r c = true ∧ pixel s.disp r c = true := by
  rw [reg_drawn_VF, collisionFlag, flagByte_eq_one, drawing, (plotSprite_spec _ _ _ _).2]
  exact or_iff_right Bool.false_ne_true

/-! ## The same DRW again -/

/-- A draw leaves the sprite and its place alone when neither coordinate is taken from VF. -/
theorem covered_drawn {x y : Reg} (n : Fin 16) (s : State) (hx : x ≠ 15) (hy : y ≠ 15) :
    covered x y n (drawn x y n s) = covered x y n s := by
  funext r c
  rw [covered, sameRegsBut_drawn x y n s x hx, sameRegsBut_drawn x y n s y hy]
  rfl

theorem disp_drawn_drawn {x y : Reg} (n : Fin 16) (s : State) (hx : x ≠ 15) (hy : y ≠ 15) :
    (drawn x y n (drawn x y n s)).disp = s.disp := by
  refine display_ext fun r hr c hc => ?_
  rw [pixel_drawn x y n _ hr hc, pixel_drawn x y n s hr hc, covered_drawn n s hx hy, Bool.xor_assoc,
    Bool.xor_self, Bool.xor_false]

/-- A covered pixel that is on after the draw is one that the draw turned on. -/
theorem covered_and_pixel_drawn_iff (x y : Reg) (n : Fin 16) (s : State) {r c : Nat} (hr : r < 32)
    (hc : c < 64) :
    (covered x y n s r c = true ∧ pixel (drawn x y n s).disp r c = true) ↔
      (pixel s.disp r c = false ∧ pixel (drawn x y n s).disp r c = true) := by
  rw [pixel_drawn x y n s hr hc]
  generalize pixel s.disp r c = old
  generalize covered x y n s r c = cov
  decide +revert

/-! ## The obligations -/

/-- Settles O48: the closed form of the scan, with the shape of the sprite read from memory. -/
theorem drawXorsTheSprite : Obligations.DrawXorsTheSprite := by
  intro x y n s hI
  have hmem : n.val = 0 ∨ s.I.toNat + n.val ≤ 0x1000 := by omega
  refine ⟨_, exec_drw_eq_next_iff.mpr ⟨hmem, rfl⟩, fun r hr c hc => ?_, ?_, ?_,
    sameRegsBut_drawn x y n s, rfl, rfl⟩
  · rw [pixel_drawn x y n s hr hc, ← covered_iff_spriteOn, xor_eq_true_iff]
  · rw [reg_drawn_VF]
    exact collisionFlag_eq_zero_or_one _
  · simp only [reg_drawn_VF_eq_one_iff, covered_iff_spriteOn]

/-- Settles O49: the second draw covers the same pixels, so it inverts each of them back, and it collides
exactly with those the first one turned on. -/
theorem drawingTwiceRestoresTheDisplay : Obligations.DrawingTwiceRestoresTheDisplay := by
  intro x y n s t hx hy hdraw
  obtain ⟨hmem, rfl⟩ := exec_drw_eq_next_iff.mp hdraw
  refine ⟨_, exec_drw_eq_next_iff.mpr ⟨hmem, rfl⟩, disp_drawn_drawn n s hx hy, ?_⟩
  rw [reg_drawn_VF_eq_one_iff, covered_drawn n s hx hy]
  exact exists_congr fun r => and_congr_right fun hr => exists_congr fun c => and_congr_right fun hc =>
    covered_and_pixel_drawn_iff x y n s hr hc

/-- Settles O47: one display write, of the dark display. -/
theorem clearTurnsEveryPixelOff : Obligations.ClearTurnsEveryPixelOff := fun _ =>
  ⟨_, rfl, pixel_clearedDisplay, rfl, rfl⟩

end Sys2Proof.Machine

/-! PROOFS. The unmapped words (spec/47_unmapped_nop.md): NOP. -/

namespace Sys2Proof.Machine

/-- The effect of NOP is nothing (R180). -/
theorem exec_nop (w : Word) (s : State) : exec (.nop w) s = .next s := rfl

/-- A machine at an unmapped word fetches NOP (R82). -/
theorem fetches_nop_of_unmapped {s : State} (hmark : s.faultMark = none) (hpc : s.pc.toNat ≤ 0xFFE)
    (hw : unmapped (wordAtPc s) = true) : fetches s (.nop (wordAtPc s)) :=
  ⟨hmark, hpc, decode_of_unmapped hw⟩

/-- All that a step at an unmapped word does is the start of the cycle (R70, R180). -/
theorem step_of_unmapped {s : State} (hmark : s.faultMark = none) (hpc : s.pc.toNat ≤ 0xFFE)
    (hw : unmapped (wordAtPc s) = true) : step s = .next (beginCycle s) :=
  calc step s
    _ = exec (.nop (wordAtPc s)) (beginCycle s) := step_of_fetches (fetches_nop_of_unmapped hmark hpc hw)
    _ = .next (beginCycle s) := exec_nop _ _

/-- Settles O50: `beginCycle` is the advance of `pc` and the cleared report. -/
theorem unmappedWordOnlyAdvancesPc : Obligations.UnmappedWordOnlyAdvancesPc :=
  ⟨exec_nop, fun _ => step_of_unmapped⟩

end Sys2Proof.Machine

/-! PROOFS. Exceptions and external events (spec/60_exceptions.md): how a step ends and what it reports, the
fault mark, and the events of the collaborators. -/

namespace Sys2Proof.Machine

/-! ## How a step ends (R205, R206) -/

/-- An instruction keeps the mark and goes on, or one of its accesses is above 0xFFF (R56). -/
theorem exec_next_or_addressFault (i : Instr) (s : State) :
    (∃ t, exec i s = .next t ∧ t.faultMark = s.faultMark) ∨
      ∃ a, exec i s = .fault (.addressFault a) ∧ 0xFFF < a := by
  rw [exec_eq_accessing i (pc_eq_sub_add s), accessing_eq]
  split
  · exact .inl ⟨_, rfl, rfl⟩
  · exact .inr ⟨_, rfl, Nat.le_max_right _ _⟩

/-- A machine already marked faults at the marked address. -/
theorem step_of_faulted {s : State} {a : Nat} (h : s.faultMark = some a) :
    step s = .fault (.addressFault a) := by
  rw [step_eq, h]
  rfl

/-- Settles O10: the machine is marked, or fetches above 0xFFE, or runs the instruction it fetches. -/
theorem stepEndsInNextOrAddressFault : Obligations.StepEndsInNextOrAddressFault := by
  intro s
  cases hmark : s.faultMark with
  | some a => exact .inr ⟨a, step_of_faulted hmark, .inl rfl⟩
  | none =>
    by_cases hpc : s.pc.toNat ≤ 0xFFE
    · rw [step_of_fetches ⟨hmark, hpc, rfl⟩]
      obtain ⟨t, hnext, hkept⟩ | ⟨a, hfault, hgt⟩ :=
        exec_next_or_addressFault (decode (wordAtPc s)) (beginCycle s)
      · exact .inl ⟨rfl, t, hnext, hkept.trans hmark⟩
      · exact .inr ⟨a, hfault, .inr ⟨rfl, hgt⟩⟩
    · have hfault := fetchAboveMemoryFaults s hmark (Nat.lt_of_not_le hpc)
      exact .inr ⟨_, hfault, .inr ⟨rfl, Nat.le_max_right _ _⟩⟩

/-! ## What a step reports (R200) -/

/-- With the report output cleared an instruction leaves exactly the report that is due. -/
theorem reportAfter_of_cleared {i : Instr} {s : State} (h : s.reportOut = .none) :
    reportAfter i s = reportDue i s := by
  rw [reportAfter]
  split
  next hdue => rw [h, hdue]
  next => rfl

/-- The conditions of R200 read registers and the stack depth, which the fetch leaves alone. -/
theorem reportDue_beginCycle (i : Instr) (s : State) : reportDue i (beginCycle s) = reportDue i s := by
  cases i <;> rfl

/-- Settles O19: the fetch clears the report output, and the instruction leaves what is due. -/
theorem reportIsTheTabulatedCondition : Obligations.ReportIsTheTabulatedCondition := by
  intro i s t hfetch hstep
  rw [step_of_fetches hfetch] at hstep
  calc t.reportOut
    _ = reportAfter i (beginCycle s) := congrArg State.reportOut (exec_next_eq_postState hstep)
    _ = reportDue i (beginCycle s) := reportAfter_of_cleared (beginCycle_reportOut s)
    _ = reportDue i s := reportDue_beginCycle i s

/-- A fetched instruction that is turned away with `c` leaves the advance of `pc` and the report (R206,
D23). -/
theorem step_of_rejected {i : Instr} {s : State} {c : Report} (hfetch : fetches s i)
    (h : exec i (beginCycle s) = .next (setReport (beginCycle s) c)) :
    step s = .next { s with pc := s.pc + 2, reportOut := c } :=
  (step_of_fetches hfetch).trans h

/-- Settles O29: each rejection is the rejecting case of its instruction's meaning; R200 has no condition for
LD Vx, K. -/
theorem rejectedInstructionsOnlyReport : Obligations.RejectedInstructionsOnlyReport := by
  refine ⟨fun s hfetch hsp => step_of_rejected hfetch (exec_ret_of_empty hsp),
    fun x s hfetch hkey => ?_, fun x s hfetch hdigit => ?_, fun x s t hfetch hstep => ?_⟩
  · obtain hskp | hsknp := hfetch
    · exact step_of_rejected hskp (skipOnKey_of_ge hkey)
    · exact step_of_rejected hsknp (skipOnKey_of_ge hkey)
  · exact step_of_rejected hfetch (glyphLookupPointsAtTheDigit.2 x _ hdigit)
  · rw [reportIsTheTabulatedCondition _ s t hfetch hstep]
    exact nofun

/-! ## The fault mark (R205, D26) -/

/-- On a marked machine too, as `step` checks the mark itself (R205). -/
@[simp] theorem event_cycle (s : State) : event .cycle s = step s := by
  cases hmark : s.faultMark with
  | none => exact event_eq_effect hmark .cycle
  | some a => exact (event_of_faulted (e := .cycle) hmark nofun).trans (step_of_faulted hmark).symm

theorem setFaultMark_self {s : State} {m : Option Nat} (h : s.faultMark = m) : setFaultMark s m = s := by
  subst h
  rfl

/-- An event other than Reset leaves a marked machine as it is. -/
theorem deliver_of_faulted {s : State} {a : Nat} (h : s.faultMark = some a) {e : Event}
    (he : e ≠ .reset) : deliver s e = s :=
  (deliver_of_fault (event_of_faulted h he)).trans (setFaultMark_self h)

theorem deliver_of_effect {s t : State} {e : Event} (h : s.faultMark = none)
    (he : eventEffect e s = .next t) : deliver s e = t :=
  deliver_of_next ((event_eq_effect h e).trans he)

theorem deliverAll_cons (s : State) (e : Event) (es : List Event) :
    deliverAll s (e :: es) = deliverAll (deliver s e) es := rfl

theorem deliverAll_of_faulted {s : State} {a : Nat} (h : s.faultMark = some a) {es : List Event}
    (hes : ∀ e ∈ es, e ≠ .reset) : deliverAll s es = s := by
  induction es with
  | nil => rfl
  | cons e es ih =>
    obtain ⟨he, hrest⟩ := List.forall_mem_cons.mp hes
    rw [deliverAll_cons, deliver_of_faulted h he, ih hrest]

/-- Settles O58: the delivered fault writes the mark alone, a marked machine ignores every event but Reset,
and the reset state has no mark. -/
theorem faultMarkStaysUntilReset : Obligations.FaultMarkStaysUntilReset :=
  ⟨fun s _ hfault => deliver_of_fault ((event_cycle s).trans hfault),
    fun _ _ _ hmark => deliverAll_of_faulted hmark,
    fun s => congrArg State.faultMark (deliver_of_next (event_reset s))⟩

/-! ## Tick60 (R210, R211) -/

/-- The cue is raised on the way from 1 to 0, and from 1 a timer counts down to 0. -/
theorem soundCueOut_tick60 (s : State) :
    (tick60 s).soundCueOut = true ↔ s.ST = 1 ∧ (tick60 s).ST = 0 := by
  have hzero : s.ST = 1 → countDown s.ST = 0 := fun h => by rw [h]; rfl
  exact beq_iff_eq.trans (and_iff_left_of_imp hzero).symm

/-- Settles O53: `countDown` on each timer, and the cue of `soundCueOut_tick60`. -/
theorem tickCountsBothTimersDown : Obligations.TickCountsBothTimersDown := fun s hmark =>
  ⟨tick60 s, event_eq_effect hmark _, countDown_toNat s.DT, countDown_toNat s.ST, soundCueOut_tick60 s, rfl⟩

/-- Settles O54, by induction on the number of ticks from any state. -/
theorem ticksStopTheTimersAtZero : Obligations.TicksStopTheTimersAtZero := by
  intro n
  induction n with
  | zero => exact fun s _ => ⟨rfl, rfl, rfl⟩
  | succ n ih =>
    intro s hmark
    have htick : deliver s .tick60 = tick60 s := deliver_of_effect hmark rfl
    have hsub (b : Byte) : (countDown b).toNat - n = b.toNat - (n + 1) := by
      rw [countDown_toNat, Nat.sub_sub, Nat.add_comm]
    obtain ⟨hDT, hST, hpc⟩ := ih (tick60 s) hmark
    rw [List.replicate_succ, deliverAll_cons, htick]
    exact ⟨hDT.trans (hsub s.DT), hST.trans (hsub s.ST), hpc⟩

/-! ## KeyWrite (R213, D24) -/

theorem keyDown_setKey (s : State) (k : Fin 16) (b : Bool) (j : Fin 16) :
    keyDown (setKey s k b) j = if j = k then b else keyDown s j := by
  simp only [keyDown, setKey_key, Vector.getElem_set, Fin.ext_iff, eq_comm]

theorem keyWrite_of_range {k b : Nat} (hk : k < 16) (hb : b < 2) (s : State) :
    keyWrite k b s = .next (setKey s ⟨k, hk⟩ (b == 1)) :=
  dif_pos ⟨hk, hb⟩

theorem keyWrite_of_outside {k b : Nat} (h : ¬ (k < 16 ∧ b < 2)) (s : State) :
    keyWrite k b s = .refused (.keyWriteOutOfRange k b) :=
  dif_neg h

/-- Settles O55: one key is set inside the ranges, and `keyWrite` refuses outside them. -/
theorem keyWriteSetsOneKey : Obligations.KeyWriteSetsOneKey := by
  refine ⟨fun k b s hmark hb => ⟨setKey s k (b == 1), ?_, ?_, fun j hj => ?_, rfl⟩,
    fun k b s hmark hout => ?_⟩
  · exact (event_eq_effect hmark _).trans (keyWrite_of_range k.isLt hb s)
  · rw [keyDown_setKey, if_pos rfl, beq_iff_eq]
  · rw [keyDown_setKey, if_neg hj]
  · exact (event_eq_effect hmark _).trans (keyWrite_of_outside (by omega) s)

/-! ## Observe and the display port (R214, D18) -/

/-- Index `r * 64 + c` of the port is row `r`, column `c`. -/
theorem linearPort_row_column (s : State) (r : Nat) {c : Nat} (hc : c < 64) :
    linearPort s (r * 64 + c) = pixelPort s r c := by
  have hrow : (r * 64 + c) / 64 = r := by omega
  have hcolumn : (r * 64 + c) % 64 = c := by omega
  rw [linearPort, hrow, hcolumn]

theorem getElem?_observe_pixels (s : State) {k : Nat} (hk : k < 2048) :
    (observe s).pixels[k]? = some (linearPort s k) := by
  rw [observe, List.getElem?_map, List.getElem?_range (by exact hk)]
  rfl

/-- Settles O57: the port lists 64 * 32 values, and the one at `r * 64 + c` is that of pixel `(r, c)`. -/
theorem observeShowsThePixels : Obligations.ObserveShowsThePixels := by
  refine ⟨fun s hmark => event_eq_effect hmark _, fun s => ⟨?_, rfl, rfl, rfl⟩, fun s r c hr hc => ?_⟩
  · rw [observe, List.length_map, List.length_range]
    rfl
  · rw [getElem?_observe_pixels s (by omega), linearPort_row_column s r hc]
    rfl

/-! ## The collaborators' events (R217, D22, D24) -/

/-- Everything the delivery of an event other than Cycle and Reset can do: nothing (on a marked machine, a
refused KeyWrite, Observe), or the one update of its event. -/
theorem deliver_collaborator_cases (s : State) {e : Event} (hcycle : e ≠ .cycle) (hreset : e ≠ .reset) :
    deliver s e = s ∨ (∃ bytes, e = .loadImage bytes ∧ deliver s e = loadImage bytes s) ∨
      deliver s e = tick60 s ∨ (∃ k b, deliver s e = setKey s k b) ∨
      (e = .drawFlagClear ∧ deliver s e = drawFlagClear s) := by
  cases hmark : s.faultMark with
  | some a => exact .inl (deliver_of_faulted hmark hreset)
  | none =>
    cases e with
    | reset => exact absurd rfl hreset
    | cycle => exact absurd rfl hcycle
    | loadImage bytes => exact .inr (.inl ⟨bytes, rfl, deliver_of_effect hmark rfl⟩)
    | tick60 => exact .inr (.inr (.inl (deliver_of_effect hmark rfl)))
    | keyWrite k b =>
      by_cases hrange : k < 16 ∧ b < 2
      · have hwrite := keyWrite_of_range hrange.1 hrange.2 s
        exact .inr (.inr (.inr (.inl ⟨_, _, deliver_of_effect hmark hwrite⟩)))
      · have hrefuse := keyWrite_of_outside hrange s
        exact .inl (deliver_of_refused ((event_eq_effect hmark _).trans hrefuse))
    | drawFlagClear => exact .inr (.inr (.inr (.inr ⟨rfl, deliver_of_effect hmark rfl⟩)))
    | observe => exact .inl (deliver_of_effect hmark rfl)

/-- LoadImage writes memory and the report output alone. -/
theorem loadImage_eq (bytes : List Byte) (s : State) :
    loadImage bytes s =
      { s with mem := (loadImage bytes s).mem, reportOut := (loadImage bytes s).reportOut } := by
  unfold loadImage
  split <;> rfl

/-- An accepted image is stored from 0x200 on, a rejected one nowhere (R243). -/
theorem read_loadImage_outside {bytes : List Byte} {a : Nat} (h : a < 0x200 ∨ 0x200 + bytes.length ≤ a)
    (s : State) : (loadImage bytes s).mem.read a = s.mem.read a := by
  unfold loadImage
  split
  · rfl
  · exact read_storeBytes_outside s.mem 0x200 bytes a h

/-- What no event but Cycle and Reset writes. -/
theorem deliver_collaborator_frame (s : State) {e : Event} (hcycle : e ≠ .cycle) (hreset : e ≠ .reset) :
    deliver s e = { deliver s e with
      V := s.V, I := s.I, pc := s.pc, stack := s.stack, sp := s.sp, disp := s.disp, draws := s.draws } := by
  obtain h | ⟨bytes, -, h⟩ | h | ⟨k, b, h⟩ | ⟨-, h⟩ := deliver_collaborator_cases s hcycle hreset
  · rw [h]
  · rw [h, loadImage_eq]
  all_goals rw [h]; rfl

/-- Of these events only LoadImage writes memory. -/
theorem deliver_collaborator_mem (s : State) {e : Event} (hcycle : e ≠ .cycle) (hreset : e ≠ .reset)
    (himage : ∀ bytes, e ≠ .loadImage bytes) : (deliver s e).mem = s.mem := by
  obtain h | ⟨bytes, hbytes, -⟩ | h | ⟨k, b, h⟩ | ⟨-, h⟩ := deliver_collaborator_cases s hcycle hreset
  · rw [h]
  · exact absurd hbytes (himage bytes)
  all_goals rw [h]; rfl

/-- A marked machine faults on LoadImage, so one that completes had the effect of `loadImage`. -/
theorem event_loadImage_next {bytes : List Byte} {s t : State} (h : event (.loadImage bytes) s = .next t) :
    t = loadImage bytes s := by
  cases hmark : s.faultMark with
  | none =>
    rw [event_eq_effect hmark] at h
    exact (Host.Outcome.next.inj h).symm
  | some a =>
    rw [event_of_faulted (e := .loadImage bytes) hmark nofun] at h
    cases h

/-- Settles O59: the frame of the collaborators' events, field by field, and the frame of LoadImage. -/
theorem collaboratorsTouchOnlyTheirOwn : Obligations.CollaboratorsTouchOnlyTheirOwn := by
  intro s e hcycle hreset
  have hframe := deliver_collaborator_frame s hcycle hreset
  refine ⟨(congrArg State.V hframe :), (congrArg State.I hframe :), (congrArg State.pc hframe :),
    (congrArg State.stack hframe :), (congrArg State.sp hframe :), (congrArg State.disp hframe :),
    (congrArg State.draws hframe :), fun himage a => ?_, fun bytes t he hnext => ?_⟩
  · rw [deliver_collaborator_mem s hcycle hreset himage]
  · subst he
    obtain rfl := event_loadImage_next hnext
    exact ⟨fun a ha => read_loadImage_outside ha s, loadImage_eq bytes s⟩

/-! ## The draw flag (R36, R215) -/

/-- CLS and DRW are the arms of `drawFlagAfter` that set the flag. -/
theorem drawFlagAfter_of_draws {i : Instr} (s : State) (h : i = .cls ∨ ∃ x y n, i = .drw x y n) :
    drawFlagAfter i s = true := by
  obtain rfl | ⟨x, y, n, rfl⟩ := h <;> rfl

/-- No instruction clears the flag. -/
theorem drawFlagAfter_of_set (i : Instr) {s : State} (h : s.drawFlag = true) :
    drawFlagAfter i s = true := by
  by_cases hkept : drawFlagAfter i s = s.drawFlag
  · rw [hkept, h]
  · exact drawFlagAfter_of_draws s (drawFlagAfter_ne hkept)

theorem step_keeps_drawFlag {s t : State} (h : s.drawFlag = true) (hstep : step s = .next t) :
    t.drawFlag = true := by
  obtain ⟨-, -, hexec⟩ := step_next hstep
  rw [exec_next_eq_postState hexec]
  exact drawFlagAfter_of_set _ h

theorem deliver_cycle_keeps_drawFlag {s : State} (h : s.drawFlag = true) :
    (deliver s .cycle).drawFlag = true := by
  obtain ⟨-, t, hnext, -⟩ | ⟨a, hfault, -⟩ := stepEndsInNextOrAddressFault s
  · rw [deliver_of_next ((event_cycle s).trans hnext)]
    exact step_keeps_drawFlag h hnext
  · rw [deliver_of_fault ((event_cycle s).trans hfault)]
    exact h

theorem deliver_keeps_drawFlag {s : State} {e : Event} (h : s.drawFlag = true) (hclear : e ≠ .drawFlagClear)
    (hreset : e ≠ .reset) : (deliver s e).drawFlag = true := by
  by_cases hcycle : e = .cycle
  · subst hcycle
    exact deliver_cycle_keeps_drawFlag h
  · obtain hd | ⟨bytes, -, hd⟩ | hd | ⟨k, b, hd⟩ | ⟨he, -⟩ := deliver_collaborator_cases s hcycle hreset
    · exact (congrArg State.drawFlag hd).trans h
    · exact (congrArg State.drawFlag (hd.trans (loadImage_eq bytes s))).trans h
    · exact (congrArg State.drawFlag hd).trans h
    · exact (congrArg State.drawFlag hd).trans h
    · exact absurd he hclear

/-- Settles O56: the flag column of the instructions, and `deliver_keeps_drawFlag` by contraposition. -/
theorem drawFlagIsClearedOnlyByItsEvents : Obligations.DrawFlagIsClearedOnlyByItsEvents := by
  refine ⟨fun s hmark => event_eq_effect hmark _, fun i s t hi hexec => ?_, fun s e hset hclear => ?_⟩
  · rw [exec_next_eq_postState hexec]
    exact drawFlagAfter_of_draws s hi
  · by_contra hother
    rw [not_or] at hother
    rw [deliver_keeps_drawFlag hset hother.1 hother.2] at hclear
    cases hclear

end Sys2Proof.Machine

/-! PROOFS. Loading an image and the end of a run (spec/70_reset_and_hazards.md). -/

namespace Sys2Proof.Machine

/-! ## LoadImage (R243) -/

theorem loadImage_of_le {bytes : List Byte} (h : bytes.length ≤ 3584) (s : State) :
    loadImage bytes s = setReport (setMem s (storeBytes oorPolicy s.mem 0x200 bytes)) .none :=
  if_neg (Nat.not_lt.mpr h)

theorem loadImage_of_gt {bytes : List Byte} (h : 3584 < bytes.length) (s : State) :
    loadImage bytes s = setReport s .oversizeImage :=
  if_pos h

/-- Settles O52: the two branches of `loadImage`. -/
theorem imageIsLoadedOrRejectedWhole : Obligations.ImageIsLoadedOrRejectedWhole := by
  have hevent {bytes : List Byte} {s : State} (hmark : s.faultMark = none) :
      event (.loadImage bytes) s = .next (loadImage bytes s) := event_eq_effect hmark _
  refine ⟨fun bytes s hmark hle => ?_, fun bytes s hmark hgt => ?_⟩
  · rw [hevent hmark, loadImage_of_le hle]
    exact ⟨_, rfl, read_storeBytes_inside s.mem 0x200 bytes, rfl⟩
  · rw [hevent hmark, loadImage_of_gt hgt]
    rfl

/-! ## The end of a run (R250, D21) -/

/-- A run has ended when what is fetched is a jump to where it was fetched from. -/
theorem runEnded_iff_fetches (s : State) : runEnded s = true ↔ fetches s (.jp (s.pc.setWidth 12)) := by
  rw [runEnded, fetchWord_eq, fetches]
  cases hmark : s.faultMark with
  | some a => simp
  | none =>
    by_cases hpc : s.pc.toNat ≤ 0xFFE
    · have hlt : s.pc.toNat < Config.memSize := Nat.lt_of_le_of_lt hpc (by decide)
      simp [hpc, hlt, wordAtPc, wordOfBytes]
    · simp [hpc]

/-- An address inside memory is its own low 12 bits. -/
theorem zext16OfAddr_setWidth {w : Word} (h : w.toNat ≤ 0xFFE) : zext16OfAddr (w.setWidth 12) = w := by
  refine BitVec.eq_of_toNat_eq ?_
  rw [zext16OfAddr_toNat, BitVec.toNat_setWidth]
  exact Nat.mod_eq_of_lt (by omega)

/-- A step at a self-loop takes the advance of `pc` back. -/
theorem step_of_selfLoop {s : State} (h : fetches s (.jp (s.pc.setWidth 12))) :
    step s = .next { s with reportOut := .none } := by
  have hback : setPc (beginCycle s) (zext16OfAddr (s.pc.setWidth 12)) = { s with reportOut := .none } :=
    State.ext_reg (pc := zext16OfAddr_setWidth h.2.1)
  rw [step_of_fetches h, ← hback]
  rfl

/-- Settles O60: an ended run is a self-loop, and the report output is no part of what is fetched. -/
theorem endedRunStaysEnded : Obligations.EndedRunStaysEnded := by
  intro s h
  have hfetch := (runEnded_iff_fetches s).mp h
  exact ⟨step_of_selfLoop hfetch, (runEnded_iff_fetches _).mpr hfetch⟩

end Sys2Proof.Machine
